-- ==== Sys2Proof/Word.lean ====
section
/-! DEFINITION. The two word types of the core: 8-bit data and 16-bit registers and instruction words
(spec/00_scope.md R9, spec/30_encoding.md R80). All values are unsigned. -/

namespace Sys2Proof

/-- A memory cell, general register or timer value: 8 bits (R20, R29, R50). -/
abbrev Byte := BitVec 8

/-- An instruction word, PC, I or stack slot: 16 bits (R23, R24, R27, R80). -/
abbrev Word := BitVec 16

end Sys2Proof
end

