-- ==== Sys2Proof/Config.lean ====
section
/-! DEFINITION. The fixed values of spec/00_scope.md R7, the configuration arguments of R8 that act after
construction, and the one free value of the model, the random byte of R166. -/

namespace Sys2Proof.Config

/-! ## The fixed values of R7 -/

/-- `MEM_SIZE`: 4096 cells, 0x000 to 0xFFF (R7, R50). -/
@[simp] abbrev memSize : Nat := 4096
/-- `NUM_V` (R7, R20). -/
@[simp] abbrev numV : Nat := 16
/-- `I_WIDTH` (R7, R23). -/
@[simp] abbrev iWidth : Nat := 16
/-- `PC_WIDTH` (R7, R24). -/
@[simp] abbrev pcWidth : Nat := 16
/-- `PC_RESET` (R7, R38). -/
@[simp] abbrev pcReset : Nat := 0x200
/-- `PROG_BASE` (R7, R293). -/
@[simp] abbrev progBase : Nat := 0x200
/-- `STACK_DEPTH` (R7, R27). -/
@[simp] abbrev stackDepth : Nat := 16
/-- `FONT_BASE` (R7, R182, R291). -/
@[simp] abbrev fontBase : Nat := 0x50
/-- `FONT_GLYPHS`: 16 glyphs (R7). -/
@[simp] abbrev fontGlyphs : Nat := 16
/-- The bytes of one glyph: "16 glyphs × 5 bytes" (R7). -/
@[simp] abbrev glyphBytes : Nat := 5
/-- `FB_W` (R7, R31). -/
@[simp] abbrev fbW : Nat := 64
/-- `FB_H` (R7, R31). -/
@[simp] abbrev fbH : Nat := 32
/-- `NUM_KEYS` (R7, R33). -/
@[simp] abbrev numKeys : Nat := 16
/-- `TIMER_WIDTH` (R7, R29, R30). -/
@[simp] abbrev timerWidth : Nat := 8
/-- `INSN_BYTES` (R7, R80). -/
@[simp] abbrev insnBytes : Nat := 2
/-- `SPRITE_W` (R7, R201). -/
@[simp] abbrev spriteW : Nat := 8
/-- `SPRITE_H_MAX` (R7, R201). -/
@[simp] abbrev spriteHMax : Nat := 15

/-! ## The configuration arguments of R8 -/

/-- `EDGE_MODE`: what a sprite pixel past the right or bottom edge does (R203). -/
inductive EdgeMode where
  | spill
  | fault
  | clip
  | wrap
deriving DecidableEq, Repr

/-- `SHIFT_SRC`: which register 8xy6 and 8xyE shift (R160). -/
inductive ShiftSrc where
  | vx
  | vy
deriving DecidableEq, Repr

/-- `ALU_ORDER`: order of the flag write and the result in 8xy4 to 8xyE (R152; the three values are listed
in spec/93_implementation_defined.md, part 2). -/
inductive AluOrder where
  | sequential
  | snapshotFlagFirst
  | snapshotFlagLast
deriving DecidableEq, Repr

/-- The configuration arguments that steps read, "fixed for the life of the instance" (R8, R290). -/
structure Params where
  edgeMode : EdgeMode
  shiftSrc : ShiftSrc
  aluOrder : AluOrder
deriving DecidableEq, Repr

/-- The spec's defaults (R8): `SPILL`, `VX`, `SEQUENTIAL`. DESIGN CHOICE, unsafe: log 4. -/
abbrev defaultParams : Params := ⟨.spill, .vx, .sequential⟩

/-! ## The free value -/

/-- The random byte source `RNG` (R35, R166): the byte that the source seeded with `seed` returns at its draw
number `draw`. A FREE VALUE (it has no body), so a claim holds "for every sequence of bytes `RNG` can return"
(R166). DESIGN CHOICE, safe: log 5. -/
opaque randomByte (seed draw : Nat) : Byte

end Sys2Proof.Config
end

