-- ==== Sys2Proof/Syntax.lean ====
section
/-! DEFINITION. The instructions: one constructor for each of the 34 rows of spec/opcode_table.json, in the table's
order (spec/30_encoding.md R85, R86). Operand names are those of R81. -/

namespace Sys2Proof

/-- A register number, the fields x and y (R84: all 16 values are valid, VF included). -/
abbrev Reg := Fin 16

/-- An instruction with its operands. `nn` and `nnn` are unsigned immediates (R83); the sprite height `n` is a count,
which `Instr.wellFormed` bounds by the 4 bits of its field. -/
inductive Instr where
  /-- 00E0 `CLS` (R200). -/
  | cls
  /-- 00EE `RET` (R132). -/
  | ret
  /-- 1nnn `JP nnn` (R134). -/
  | jp (nnn : BitVec 12)
  /-- 2nnn `CALL nnn` (R130). -/
  | call (nnn : BitVec 12)
  /-- 3xnn `SE Vx, nn` (R135). -/
  | seImm (x : Reg) (nn : Byte)
  /-- 4xnn `SNE Vx, nn` (R136). -/
  | sneImm (x : Reg) (nn : Byte)
  /-- 5xy0 `SE Vx, Vy` (R137). -/
  | seReg (x y : Reg)
  /-- 6xnn `LD Vx, nn` (R150). -/
  | ldImm (x : Reg) (nn : Byte)
  /-- 7xnn `ADD Vx, nn` (R151). -/
  | addImm (x : Reg) (nn : Byte)
  /-- 8xy0 `LD Vx, Vy` (R153). -/
  | ldReg (x y : Reg)
  /-- 8xy1 `OR Vx, Vy` (R154). -/
  | orReg (x y : Reg)
  /-- 8xy2 `AND Vx, Vy` (R155). -/
  | andReg (x y : Reg)
  /-- 8xy3 `XOR Vx, Vy` (R156). -/
  | xorReg (x y : Reg)
  /-- 8xy4 `ADD Vx, Vy` (R157). -/
  | addReg (x y : Reg)
  /-- 8xy5 `SUB Vx, Vy` (R158). -/
  | sub (x y : Reg)
  /-- 8xy6 `SHR Vx, Vy` (R159). -/
  | shr (x y : Reg)
  /-- 8xy7 `SUBN Vx, Vy` (R161). -/
  | subn (x y : Reg)
  /-- 8xyE `SHL Vx, Vy` (R162). -/
  | shl (x y : Reg)
  /-- 9xy0 `SNE Vx, Vy` (R138). -/
  | sneReg (x y : Reg)
  /-- Annn `LD I, nnn` (R180). -/
  | ldI (nnn : BitVec 12)
  /-- Bnnn `JP V0, nnn` (R139). -/
  | jpV0 (nnn : BitVec 12)
  /-- Cxnn `RND Vx, nn` (R165). -/
  | rnd (x : Reg) (nn : Byte)
  /-- Dxyn `DRW Vx, Vy, n` (R205). -/
  | drw (x y : Reg) (n : Nat)
  /-- Ex9E `SKP Vx` (R230). -/
  | skp (x : Reg)
  /-- ExA1 `SKNP Vx` (R231). -/
  | sknp (x : Reg)
  /-- Fx07 `LD Vx, DT` (R232). -/
  | ldXDt (x : Reg)
  /-- Fx0A `LD Vx, K` (R233). -/
  | ldXK (x : Reg)
  /-- Fx15 `LD DT, Vx` (R235). -/
  | ldDtX (x : Reg)
  /-- Fx18 `LD ST, Vx` (R236). -/
  | ldStX (x : Reg)
  /-- Fx1E `ADD I, Vx` (R181). -/
  | addIX (x : Reg)
  /-- Fx29 `LD F, Vx` (R182). -/
  | ldFX (x : Reg)
  /-- Fx33 `LD B, Vx` (R183). -/
  | ldBX (x : Reg)
  /-- Fx55 `LD [I], Vx` (R184). -/
  | stRegs (x : Reg)
  /-- Fx65 `LD Vx, [I]` (R185). -/
  | ldRegs (x : Reg)
deriving DecidableEq, Repr

end Sys2Proof
end

