-- ==== Sys2Proof/WellFormed.lean ====
section
/-! DEFINITION. When an instruction is well formed: it has an encoding (spec/30_encoding.md R81 to R84). Register
numbers and immediates have exactly the widths of their fields by their types, and every value of them is valid (R84);
the one operand held as a count, the sprite height, must fit its 4-bit field. -/

namespace Sys2Proof

/-- The instruction can be encoded. The one check: a sprite has at most `SPRITE_H_MAX` = 15 rows (R7, R83). -/
def Instr.wellFormed : Instr → Bool
  | .cls => true
  | .ret => true
  | .jp _ => true
  | .call _ => true
  | .seImm _ _ => true
  | .sneImm _ _ => true
  | .seReg _ _ => true
  | .ldImm _ _ => true
  | .addImm _ _ => true
  | .ldReg _ _ => true
  | .orReg _ _ => true
  | .andReg _ _ => true
  | .xorReg _ _ => true
  | .addReg _ _ => true
  | .sub _ _ => true
  | .shr _ _ => true
  | .subn _ _ => true
  | .shl _ _ => true
  | .sneReg _ _ => true
  | .ldI _ => true
  | .jpV0 _ => true
  | .rnd _ _ => true
  | .drw _ _ n => decide (n ≤ Config.spriteHMax)
  | .skp _ => true
  | .sknp _ => true
  | .ldXDt _ => true
  | .ldXK _ => true
  | .ldDtX _ => true
  | .ldStX _ => true
  | .addIX _ => true
  | .ldFX _ => true
  | .ldBX _ => true
  | .stRegs _ => true
  | .ldRegs _ => true

end Sys2Proof
end

