-- ==== Sys2Proof/Decode.lean ====
section
/-! DEFINITION. The decoder, total on the 65536 words and on any bytes, and the encoder
(spec/30_encoding.md R80 to R89, spec/20_memory.md R54). -/

namespace Sys2Proof

/-! ## Fields of an instruction word (R81) -/

/-- `f = w[15:12]`, the opcode family. -/
def fieldF (w : Word) : BitVec 4 := w.extractLsb' 12 4

/-- `x = w[11:8]`. -/
def fieldX (w : Word) : Reg := ⟨(w.extractLsb' 8 4).toNat, (w.extractLsb' 8 4).isLt⟩

/-- `y = w[7:4]`. -/
def fieldY (w : Word) : Reg := ⟨(w.extractLsb' 4 4).toNat, (w.extractLsb' 4 4).isLt⟩

/-- `n = w[3:0]`, as a count. -/
def fieldN (w : Word) : Nat := (w.extractLsb' 0 4).toNat

/-- `nn = w[7:0]`. -/
def fieldNN (w : Word) : Byte := w.extractLsb' 0 8

/-- `nnn = w[11:0]`. -/
def fieldNNN (w : Word) : BitVec 12 := w.extractLsb' 0 12

/-! ## Family 8 -/

/-- The nine family-8 operations, in the order R85 lists them. -/
inductive AluOp where
  | assign
  | or
  | and
  | xor
  | add
  | sub
  | shr
  | subn
  | shl
deriving DecidableEq, Repr

/-- The selector values of family 8, kept in one table as spec/93_implementation_defined.md G2 asks (R85, D8: the
values are the spec's own, from general knowledge; log 18). -/
def aluSelectors : List (Nat × AluOp) :=
  [(0x0, .assign), (0x1, .or), (0x2, .and), (0x3, .xor), (0x4, .add), (0x5, .sub), (0x6, .shr), (0x7, .subn),
   (0xE, .shl)]

/-- The operation a selector names, if any (R85). -/
def aluOpOf (n : Nat) : Option AluOp := (aluSelectors.find? fun row => row.1 == n).map (·.2)

/-- The selector of an operation (R85). -/
def aluSelector (op : AluOp) : BitVec 4 :=
  BitVec.ofNat 4 (((aluSelectors.find? fun row => row.2 == op).map (·.1)).getD 0)

/-- The instruction of a family-8 operation with its operands (R85). -/
def AluOp.instr (op : AluOp) (x y : Reg) : Instr :=
  match op with
  | .assign => .ldReg x y
  | .or => .orReg x y
  | .and => .andReg x y
  | .xor => .xorReg x y
  | .add => .addReg x y
  | .sub => .sub x y
  | .shr => .shr x y
  | .subn => .subn x y
  | .shl => .shl x y

/-! ## The decoder -/

/-- Why bytes are no instruction: fewer than two bytes, or an unrecognized word of one of the four families that
have a selector (R87). -/
inductive DecodeError where
  /-- fewer than `INSN_BYTES` bytes -/
  | truncated (have_ : Nat)
  /-- 0x0nnn other than 00E0 and 00EE -/
  | unknownSystem (w : Word)
  /-- 0x8xyN with no operation N -/
  | unknownAlu (w : Word)
  /-- 0xExNN with no operation NN -/
  | unknownKey (w : Word)
  /-- 0xFxNN with no operation NN -/
  | unknownMisc (w : Word)
deriving DecidableEq, Repr

/-- What the decoder answers: an instruction, or a rejection by name (R85: "one instruction or UNRECOGNIZED"). -/
inductive Decoded where
  | instr (i : Instr)
  | reject (e : DecodeError)
deriving DecidableEq, Repr

/-- Family 0x0, compared on the whole word (R85; D9, log 18). -/
def decodeSystem (w : Word) : Decoded :=
  if w = 0x00E0#16 then .instr .cls
  else if w = 0x00EE#16 then .instr .ret
  else .reject (.unknownSystem w)

/-- Family 0x8, selected by n (R85). -/
def decodeAlu (w : Word) : Decoded :=
  match aluOpOf (fieldN w) with
  | some op => .instr (op.instr (fieldX w) (fieldY w))
  | none => .reject (.unknownAlu w)

/-- Family 0xE, selected by nn (R85). -/
def decodeKey (w : Word) : Decoded :=
  if fieldNN w = 0x9E#8 then .instr (.skp (fieldX w))
  else if fieldNN w = 0xA1#8 then .instr (.sknp (fieldX w))
  else .reject (.unknownKey w)

/-- Family 0xF, selected by nn (R85). -/
def decodeMisc (w : Word) : Decoded :=
  if fieldNN w = 0x07#8 then .instr (.ldXDt (fieldX w))
  else if fieldNN w = 0x0A#8 then .instr (.ldXK (fieldX w))
  else if fieldNN w = 0x15#8 then .instr (.ldDtX (fieldX w))
  else if fieldNN w = 0x18#8 then .instr (.ldStX (fieldX w))
  else if fieldNN w = 0x1E#8 then .instr (.addIX (fieldX w))
  else if fieldNN w = 0x29#8 then .instr (.ldFX (fieldX w))
  else if fieldNN w = 0x33#8 then .instr (.ldBX (fieldX w))
  else if fieldNN w = 0x55#8 then .instr (.stRegs (fieldX w))
  else if fieldNN w = 0x65#8 then .instr (.ldRegs (fieldX w))
  else .reject (.unknownMisc w)

/-- The decoder of R85, by the top nibble. Families 0x5 and 0x9 do not examine n (R89; D10, log 17). -/
def decode (w : Word) : Decoded :=
  match (fieldF w).toNat with
  | 0x0 => decodeSystem w
  | 0x1 => .instr (.jp (fieldNNN w))
  | 0x2 => .instr (.call (fieldNNN w))
  | 0x3 => .instr (.seImm (fieldX w) (fieldNN w))
  | 0x4 => .instr (.sneImm (fieldX w) (fieldNN w))
  | 0x5 => .instr (.seReg (fieldX w) (fieldY w))
  | 0x6 => .instr (.ldImm (fieldX w) (fieldNN w))
  | 0x7 => .instr (.addImm (fieldX w) (fieldNN w))
  | 0x8 => decodeAlu w
  | 0x9 => .instr (.sneReg (fieldX w) (fieldY w))
  | 0xA => .instr (.ldI (fieldNNN w))
  | 0xB => .instr (.jpV0 (fieldNNN w))
  | 0xC => .instr (.rnd (fieldX w) (fieldNN w))
  | 0xD => .instr (.drw (fieldX w) (fieldY w) (fieldN w))
  | 0xE => decodeKey w
  | _ => decodeMisc w

/-- Two bytes combined big-endian: the byte at the lower address is bits 15:8 (R54, R55). -/
def wordOfBytes (hi lo : Byte) : Word := hi ++ lo

/-- The byte of a word stored at the lower address (R54). -/
def highByte (w : Word) : Byte := w.extractLsb' 8 8

/-- The byte of a word stored at the higher address (R54). -/
def lowByte (w : Word) : Byte := w.extractLsb' 0 8

/-- Decode the first two bytes of a byte sequence (R54, R80); the rest is given back with the answer. -/
def decodeBytes : List Byte → Decoded × List Byte
  | [] => (.reject (.truncated 0), [])
  | [b] => (.reject (.truncated 1), [b])
  | hi :: lo :: rest => (decode (wordOfBytes hi lo), rest)

/-! ## The encoder (R82) -/

/-- A register number as its 4-bit field. -/
def regBits (r : Reg) : BitVec 4 := BitVec.ofNat 4 r.val

/-- Format `A`: `f n n n`. -/
def encodeA (f : BitVec 4) (nnn : BitVec 12) : Word := f ++ nnn

/-- Format `XNN`: `f x n n`; format `XS` has the same layout with the selector as nn. -/
def encodeXNN (f : BitVec 4) (x : Reg) (nn : Byte) : Word := f ++ (regBits x ++ nn : BitVec 12)

/-- Formats `XY` and `XYN`: `f x y n`. -/
def encodeXYN (f : BitVec 4) (x y : Reg) (n : BitVec 4) : Word :=
  f ++ (regBits x ++ (regBits y ++ n : BitVec 8) : BitVec 12)

/-- The word of an instruction (R82). 5xy0 and 9xy0 are written with bits 3:0 = 0 (R90). -/
def encode : Instr → Word
  | .cls => 0x00E0#16
  | .ret => 0x00EE#16
  | .jp nnn => encodeA 0x1#4 nnn
  | .call nnn => encodeA 0x2#4 nnn
  | .seImm x nn => encodeXNN 0x3#4 x nn
  | .sneImm x nn => encodeXNN 0x4#4 x nn
  | .seReg x y => encodeXYN 0x5#4 x y 0x0#4
  | .ldImm x nn => encodeXNN 0x6#4 x nn
  | .addImm x nn => encodeXNN 0x7#4 x nn
  | .ldReg x y => encodeXYN 0x8#4 x y (aluSelector .assign)
  | .orReg x y => encodeXYN 0x8#4 x y (aluSelector .or)
  | .andReg x y => encodeXYN 0x8#4 x y (aluSelector .and)
  | .xorReg x y => encodeXYN 0x8#4 x y (aluSelector .xor)
  | .addReg x y => encodeXYN 0x8#4 x y (aluSelector .add)
  | .sub x y => encodeXYN 0x8#4 x y (aluSelector .sub)
  | .shr x y => encodeXYN 0x8#4 x y (aluSelector .shr)
  | .subn x y => encodeXYN 0x8#4 x y (aluSelector .subn)
  | .shl x y => encodeXYN 0x8#4 x y (aluSelector .shl)
  | .sneReg x y => encodeXYN 0x9#4 x y 0x0#4
  | .ldI nnn => encodeA 0xA#4 nnn
  | .jpV0 nnn => encodeA 0xB#4 nnn
  | .rnd x nn => encodeXNN 0xC#4 x nn
  | .drw x y n => encodeXYN 0xD#4 x y (BitVec.ofNat 4 n)
  | .skp x => encodeXNN 0xE#4 x 0x9E#8
  | .sknp x => encodeXNN 0xE#4 x 0xA1#8
  | .ldXDt x => encodeXNN 0xF#4 x 0x07#8
  | .ldXK x => encodeXNN 0xF#4 x 0x0A#8
  | .ldDtX x => encodeXNN 0xF#4 x 0x15#8
  | .ldStX x => encodeXNN 0xF#4 x 0x18#8
  | .addIX x => encodeXNN 0xF#4 x 0x1E#8
  | .ldFX x => encodeXNN 0xF#4 x 0x29#8
  | .ldBX x => encodeXNN 0xF#4 x 0x33#8
  | .stRegs x => encodeXNN 0xF#4 x 0x55#8
  | .ldRegs x => encodeXNN 0xF#4 x 0x65#8

/-- The bytes of an instruction as they lie in memory, the first at the lowest address (R54, R80). -/
def encodeBytes (i : Instr) : List Byte := [highByte (encode i), lowByte (encode i)]

/-! ## The host's question about one table word -/

/-- The 16-bit word whose bits, as the opcode table numbers them, are `w`, of which the row gives `nbits`. -/
def tableWord (nbits w : Nat) : Word := BitVec.ofNat 16 (w % 2 ^ nbits)

/-- The instruction the decoder reads from a table word laid out in memory order; none where it refuses. -/
def decodeTableWord (nbits w : Nat) : Option Instr :=
  match (decodeBytes [highByte (tableWord nbits w), lowByte (tableWord nbits w)]).1 with
  | .instr i => some i
  | .reject _ => none

end Sys2Proof
end

