-- ==== Sys2Proof/Machine/State.lean ====
section
/-! DEFINITION. The machine's state as plain data (spec/10_state.md R20 to R41), its faults (spec/60_exceptions.md
R250), its refusals, and the state after construction with the spec's defaults (R38, R290). -/

namespace Sys2Proof.Machine

/-- Memory (R50): the cells that differ from the reset contents, addresses strictly rising. An unlisted cell reads as
`initialByte` (Machine/Memory.lean); `Memory.wf` there is the canonical form. -/
abbrev Memory := List Host.Cell

/-- What kind of access met an address outside memory (R250). -/
inductive AccessKind where
  | fetch
  | read
  | write
deriving DecidableEq, Repr

/-- The fatal faults (R250), each with the information R250 records; `pcFetch` is the address of the instruction that
raised it. Every one of them is the spec's own: the spec halts there, so the stop is exact. Where the reference
implementation goes on unchecked the stop is safe (R52, D2, D11, D16, D17). -/
inductive Fault where
  /-- code 1: a memory access at 0x1000 or above. Raised by the fetch, Dxyn, Fx33, Fx55, Fx65 and the host's load (which
  has no instruction: `pcFetch = none`). Safe. -/
  | memOob (addr : Nat) (kind : AccessKind) (pcFetch : Option Word)
  /-- code 2: CALL with SP = 16 (R131). Raised by 2nnn. Safe. -/
  | stackOverflow (pcFetch : Word)
  /-- code 3: RET with SP = 0 (R133). Raised by 00EE. Safe. -/
  | stackUnderflow (pcFetch : Word)
  /-- code 4: SKP or SKNP with V[x] of 16 or more (R230, R231). Raised by Ex9E and ExA1. Safe. -/
  | keyRange (key : Byte) (pcFetch : Word)
  /-- code 5: a set sprite bit placed outside the buffer (R203). Raised by Dxyn. Safe. -/
  | drawRange (x y : Nat) (pcFetch : Word)
deriving DecidableEq, Repr

/-- What the model gives no next state to and no fault. -/
inductive Refusal where
  /-- an instruction that has no meaning yet; raised only by an arm of `exec`. No arm uses it. Safe. -/
  | notModelled (mnemonic : String)
  /-- an operation on a core whose FAULT is set: "No step, tick, key event, frame consumption or load is defined on a
  faulted core" (R252). Raised by `step` and `Session.transact`. Safe: log 2. -/
  | coreHalted
  /-- a second load, or a load after the first step: "outside the spec" (R294). Raised by `Session.transact`. Safe:
  log 10. -/
  | loadOutsideBoot
  /-- a step before the load: the host's duty (1) of R278. Raised by `Session.transact`. Safe: log 10. -/
  | stepBeforeLoad
deriving DecidableEq, Repr

/-- The non-fatal report `Unrecognized(word, addr)` of R256. -/
structure Report where
  word : Word
  addr : Word
deriving DecidableEq, Repr

/-- All the state the spec gives the machine. -/
structure State where
  /-- the configuration arguments fixed at construction (R8, R290) -/
  config : Config.Params
  /-- `MEM` (R50) -/
  mem : Memory
  /-- `V[0]` to `V[15]` (R20) -/
  v : Vector Byte 16
  /-- `I` (R23) -/
  i : Word
  /-- `PC` (R24) -/
  pc : Word
  /-- `SP`, the number of occupied slots, 0..16 (R28) -/
  sp : Fin 17
  /-- `STACK[0]` to `STACK[15]` (R27) -/
  stack : Vector Word 16
  /-- `DT` (R29) -/
  dt : Byte
  /-- `ST` (R30) -/
  st : Byte
  /-- `FB`, the "flat sequence of 2048 bits" of R31: bit L is the pixel of linear index L = y*64 + x, 1 is lit -/
  fb : BitVec 2048
  /-- `DIRTY` (R32) -/
  dirty : Bool
  /-- `KEY[0]` to `KEY[15]`, true is pressed (R33) -/
  keys : Vector Bool 16
  /-- `WAIT` (R34) -/
  wait : Bool
  /-- `WAIT_REG` (R34) -/
  waitReg : Reg
  /-- the seed of `RNG`, given at construction (R35, R166) -/
  rngSeed : Nat
  /-- how many bytes Cxnn has drawn so far: the model's own field (log 5) -/
  rngDraws : Nat
  /-- `FAULT` (R36) -/
  fault : Option Fault
  /-- the report events emitted so far, oldest first: the model's own output channel (R256, log 3) -/
  events : List Report
deriving DecidableEq, Repr

/-- The state after construction with the spec's defaults (R38, R290 to R292): memory lists nothing, because every cell
holds its reset contents. -/
def State.reset : State where
  config := Config.defaultParams
  mem := []
  v := Vector.replicate 16 0
  i := 0
  pc := BitVec.ofNat 16 Config.pcReset
  sp := 0
  stack := Vector.replicate 16 0
  dt := 0
  st := 0
  fb := 0
  dirty := false
  keys := Vector.replicate 16 false
  wait := false
  waitReg := 0
  rngSeed := 0
  rngDraws := 0
  fault := none
  events := []

end Sys2Proof.Machine
end

