-- ==== Sys2Proof/Machine/Memory.lean ====
section
/-! DEFINITION. Memory as a canonical list of the cells that differ from the reset contents (spec/20_memory.md R50, R59,
spec/70_reset_and_hazards.md R291, R292). -/

namespace Sys2Proof.Machine

/-- Glyphs 0 to 7 of the default `FONT` (R291; the bytes are the spec's, from general knowledge: log 7). -/
def fontLow : List Byte :=
  [0xF0, 0x90, 0x90, 0x90, 0xF0] ++ [0x20, 0x60, 0x20, 0x20, 0x70] ++ [0xF0, 0x10, 0xF0, 0x80, 0xF0] ++
  [0xF0, 0x10, 0xF0, 0x10, 0xF0] ++ [0x90, 0x90, 0xF0, 0x10, 0x10] ++ [0xF0, 0x80, 0xF0, 0x10, 0xF0] ++
  [0xF0, 0x80, 0xF0, 0x90, 0xF0] ++ [0xF0, 0x10, 0x20, 0x40, 0x40]

/-- Glyphs 8 to F of the default `FONT` (R291). -/
def fontHigh : List Byte :=
  [0xF0, 0x90, 0xF0, 0x90, 0xF0] ++ [0xF0, 0x90, 0xF0, 0x10, 0xF0] ++ [0xF0, 0x90, 0xF0, 0x90, 0x90] ++
  [0xE0, 0x90, 0xE0, 0x90, 0xE0] ++ [0xF0, 0x80, 0x80, 0x80, 0xF0] ++ [0xE0, 0x90, 0x90, 0x90, 0xE0] ++
  [0xF0, 0x80, 0xF0, 0x80, 0xF0] ++ [0xF0, 0x80, 0xF0, 0x80, 0x80]

/-- The default `FONT`: byte `5*d + r` is row r of glyph d (R291). -/
def defaultFont : List Byte := fontLow ++ fontHigh

/-- The default `INIT_FILL` (R292; D3, log 6). -/
def defaultFill : Byte := 0x00

/-- The contents at construction of a cell under the fonts and fills given: the font region holds the font, every other
cell the fill (R291, R292). -/
def contentsAt (font : List Byte) (fill : Nat → Byte) (a : Nat) : Byte :=
  if Config.fontBase ≤ a ∧ a < Config.fontBase + Config.fontGlyphs * Config.glyphBytes then
    font.getD (a - Config.fontBase) (fill a)
  else fill a

/-- What an unlisted address reads as: the reset contents under the spec's defaults (R291, R292). -/
def initialByte (a : Nat) : Byte := contentsAt defaultFont (fun _ => defaultFill) a

/-- `MEM[a]` (R50). -/
def Memory.read : Memory → Nat → Byte
  | [], a => initialByte a
  | (b, u) :: m, a => if a = b then u else Memory.read m a

/-- `MEM[a] <- v` (R50), keeping the canonical form: writing what an unlisted cell reads as removes the entry. -/
def Memory.write : Memory → Nat → Byte → Memory
  | [], a, v => if v = initialByte a then [] else [(a, v)]
  | (b, u) :: m, a, v =>
    if a < b then (if v = initialByte a then (b, u) :: m else (a, v) :: (b, u) :: m)
    else if a = b then (if v = initialByte a then m else (a, v) :: m)
    else (b, u) :: Memory.write m a v

/-- Every listed address is above `lo`, inside memory and different from the reset contents, and they rise strictly. -/
def Memory.wfAbove : Nat → Memory → Bool
  | _, [] => true
  | lo, (a, v) :: m => decide (lo ≤ a) && decide (a < Config.memSize) && decide (v ≠ initialByte a) && Memory.wfAbove (a + 1) m

/-- The canonical form: addresses strictly rising and inside memory, no entry equal to the reset contents. -/
def Memory.wf (m : Memory) : Bool := Memory.wfAbove 0 m

/-- The memory whose cell `a` holds `f a`, in canonical form. -/
def Memory.ofContents (f : Nat → Byte) : Memory :=
  (List.range Config.memSize).filterMap fun a => if f a = initialByte a then none else some (a, f a)

end Sys2Proof.Machine
end

