-- ==== Sys2Proof/Machine/Ops.lean ====
section
/-! DEFINITION. The named operations over registers and memory that the instructions share: the primitives of
spec/00_scope.md R12, the register file's accessors (spec/10_state.md R41), the fetch (spec/20_memory.md R56), and the
raising of a fault (spec/60_exceptions.md R251). The core has no traps, so no exception is entered and none is
returned from (R259). -/

namespace Sys2Proof.Machine

/-! ## Register-file accessors and single-field updates (R41) -/

/-- `V[x] <- b`. -/
def State.setV (s : State) (x : Reg) (b : Byte) : State := { s with v := s.v.set x.val b x.isLt }

/-- The register that serves as the flag, VF (R21). -/
def flagReg : Reg := 15

/-- `VF <- b`. -/
def State.setVF (s : State) (b : Byte) : State := s.setV flagReg b

/-- `I <- a`. -/
def State.setI (s : State) (a : Word) : State := { s with i := a }

/-- `pc <- a`. -/
def State.setPc (s : State) (a : Word) : State := { s with pc := a }

/-- `DT <- b`. -/
def State.setDt (s : State) (b : Byte) : State := { s with dt := b }

/-- `ST <- b`. -/
def State.setSt (s : State) (b : Byte) : State := { s with st := b }

/-- `MEM` replaced whole. -/
def State.setMem (s : State) (m : Memory) : State := { s with mem := m }

/-- `FB` replaced whole. -/
def State.setFb (s : State) (f : BitVec 2048) : State := { s with fb := f }

/-- `DIRTY <- b`. -/
def State.setDirty (s : State) (b : Bool) : State := { s with dirty := b }

/-- `KEY[k] <- b`. -/
def State.setKey (s : State) (k : Fin 16) (b : Bool) : State := { s with keys := s.keys.set k.val b k.isLt }

/-- `WAIT <- 1; WAIT_REG <- x`. -/
def State.startWait (s : State) (x : Reg) : State := { s with wait := true, waitReg := x }

/-- `WAIT <- 0`. -/
def State.endWait (s : State) : State := { s with wait := false }

/-- `FAULT <- (code, info)` (R251). -/
def State.halt (s : State) (f : Fault) : State := { s with fault := some f }

/-- `report Unrecognized(word, addr)`: emit the event, change nothing else (R12, R256). -/
def State.report (s : State) (r : Report) : State := { s with events := s.events ++ [r] }

/-! ## The program counter (R24, R111) -/

/-- `PC <- (PC + 2) mod 2^16`. -/
def State.advancePc (s : State) : State := s.setPc (s.pc + 2)

/-- `pc_fetch`, the address of the executing instruction: the fetch set `PC = pc_fetch + 2` (R11, R111). -/
def State.pcFetch (s : State) : Word := s.pc - 2

/-- A skip: "when its condition holds, it performs `PC <- (PC + 2) mod 2^16`" (R141). -/
def State.skipIf (s : State) (c : Bool) : State := if c then s.advancePc else s

/-! ## Faults -/

/-- `raise Fault(code, info)`: the operation ends with the fatal outcome, and no later effect of it happens
(R12, R251). -/
def raise {α : Type} (f : Fault) : Except Fault α := .error f

/-- The outcome of a step whose instruction ended so (R13). -/
def complete : Except Fault State → Host.Outcome State Fault Refusal
  | .ok s => .next s
  | .error f => .fault f

/-! ## Memory primitives (R12, R52, R53): addresses are unbounded integers, checked before the access -/

/-- `MemRead(addr, 1)`. -/
def memRead (s : State) (addr : Nat) (kind : AccessKind) (pcFetch : Word) : Except Fault Byte :=
  if addr < Config.memSize then .ok (s.mem.read addr) else raise (.memOob addr kind (some pcFetch))

/-- `MemWrite(addr, 1, v)`. -/
def memWrite (s : State) (addr : Nat) (v : Byte) (pcFetch : Option Word) : Except Fault State :=
  if addr < Config.memSize then .ok (s.setMem (s.mem.write addr v)) else raise (.memOob addr .write pcFetch)

/-- `MemRead(addr, 1)`, `MemRead(addr + 1, 1)`, … in increasing order, `n` bytes. -/
def readBytes (s : State) (addr : Nat) : Nat → Except Fault (List Byte)
  | 0 => .ok []
  | n + 1 =>
    match memRead s addr .read s.pcFetch with
    | .error f => .error f
    | .ok b =>
      match readBytes s (addr + 1) n with
      | .error f => .error f
      | .ok bs => .ok (b :: bs)

/-- `MemWrite(addr, 1, b0)`, `MemWrite(addr + 1, 1, b1)`, … in increasing order. -/
def storeBytes (pcFetch : Option Word) : List Byte → Nat → State → Except Fault State
  | [], _, s => .ok s
  | b :: bs, addr, s =>
    match memWrite s addr b pcFetch with
    | .error f => .error f
    | .ok s' => storeBytes pcFetch bs (addr + 1) s'

/-- The fetch: the high byte at PC, then the low byte at PC + 1, combined big-endian (R54, R56, R110). -/
def fetchWord (s : State) : Except Fault Word :=
  match memRead s s.pc.toNat .fetch s.pc with
  | .error f => .error f
  | .ok hi =>
    match memRead s (s.pc.toNat + 1) .fetch s.pc with
    | .error f => .error f
    | .ok lo => .ok (wordOfBytes hi lo)

/-! ## The call stack (R28) -/

/-- `if SP = 16 then raise Fault(STACK_OVERFLOW, pc_fetch); STACK[SP] <- a; SP <- SP + 1` (R130, R131). -/
def push (s : State) (a : Word) : Except Fault State :=
  if h : s.sp.val < 16 then
    .ok { s with stack := s.stack.set s.sp.val a h, sp := ⟨s.sp.val + 1, Nat.succ_lt_succ h⟩ }
  else raise (.stackOverflow s.pcFetch)

/-- `if SP = 0 then raise Fault(STACK_UNDERFLOW, pc_fetch); SP <- SP - 1`, then `STACK[SP]`; the slot keeps its value
(R132, R133). -/
def pop (s : State) : Except Fault (Word × State) :=
  if h : 0 < s.sp.val then
    .ok (s.stack[s.sp.val - 1]'(by have := s.sp.isLt; omega),
      { s with sp := ⟨s.sp.val - 1, by have := s.sp.isLt; omega⟩ })
  else raise (.stackUnderflow s.pcFetch)

/-! ## The random source (R35, R166) -/

/-- `RandomByte()`: the next byte of the source, a free value, and the source advanced by one draw (R12, R165). -/
def drawRandom (s : State) : Byte × State :=
  (Config.randomByte s.rngSeed s.rngDraws, { s with rngDraws := s.rngDraws + 1 })

end Sys2Proof.Machine
end

