-- ==== Sys2Proof/Machine/Operands.lean ====
section
/-! DEFINITION. Every operand form of the instructions (spec/30_encoding.md R83, R84): immediates extended with zeros,
registers, the shift source, computed targets, the glyph address, decimal digits, register ranges, key numbers and the
sprite origin. -/

namespace Sys2Proof.Machine

/-- `zext_16` of a 12-bit address (R83). -/
def zextAddr (nnn : BitVec 12) : Word := nnn.setWidth 16

/-- `zext_16` of a byte (R12). -/
def zextByte (b : Byte) : Word := b.setWidth 16

/-- `V[x]` (R84). -/
def State.reg (s : State) (x : Reg) : Byte := s.v[x.val]

/-- The number of the register that 8xy6 and 8xyE shift: x, or y under `SHIFT_SRC = VY` (R160). -/
def shiftReg (s : State) (x y : Reg) : Reg :=
  match s.config.shiftSrc with
  | .vx => x
  | .vy => y

/-- The target of Bnnn: `zext_16(nnn) + zext_16(V[0])`, not reduced mod 4096 (R139; D12, log 20). -/
def indexedTarget (s : State) (nnn : BitVec 12) : Word := zextAddr nnn + zextByte (s.reg 0)

/-- The address of a glyph: `0x50 + 5 * V[x]`, using all of V[x] (R182; D14, log 21). -/
def glyphAddress (b : Byte) : Word := BitVec.ofNat 16 (Config.fontBase + Config.glyphBytes * b.toNat)

/-- The decimal digits of a byte, hundreds first: `v div 100`, `(v div 10) mod 10`, `v mod 10` (R183). -/
def decimalDigits (b : Byte) : List Byte :=
  [BitVec.ofNat 8 (b.toNat / 100), BitVec.ofNat 8 (b.toNat / 10 % 10), BitVec.ofNat 8 (b.toNat % 10)]

/-- `V[0]` to `V[x]`, inclusive of x (R184). -/
def regsUpTo (s : State) (x : Reg) : List Byte := s.v.toList.take (x.val + 1)

/-- `V[k] <- bytes[k]` for every k that `bytes` has; the registers above keep their values (R185). -/
def loadRegs (s : State) (bytes : List Byte) : State :=
  { s with v := Vector.ofFn fun k : Fin 16 => bytes.getD k.val s.v[k.val] }

/-- The key that V[x] names: `if k >= 16 then raise Fault(KEY_RANGE, k)` (R230, R231; D16, log 22). -/
def keyOperand (s : State) (x : Reg) : Except Fault (Fin 16) :=
  if h : (s.reg x).toNat < 16 then .ok ⟨(s.reg x).toNat, h⟩ else raise (.keyRange (s.reg x) s.pcFetch)

/-- `ox = V[x] mod 64` (R202). -/
def originX (s : State) (x : Reg) : Nat := (s.reg x).toNat % Config.fbW

/-- `oy = V[y] mod 32` (R202; spec/90_conflicts.md C1). -/
def originY (s : State) (y : Reg) : Nat := (s.reg y).toNat % Config.fbH

end Sys2Proof.Machine
end

