-- ==== Sys2Proof/Machine/Flags.lean ====
section
/-! DEFINITION. Every flag computation (spec/42_register_alu.md R152 to R162) and the shared sequence of the five
flag-writing operations under each `ALU_ORDER` (R152, spec/93_implementation_defined.md part 2). -/

namespace Sys2Proof.Machine

/-- A flag as VF holds it: "The flag is always 0 or 1" (R152; D42, log 19). -/
def flagByte (c : Bool) : Byte := if c then 1 else 0

/-- Carry out of 8xy4: "VF == 1 iff a+b > 255" (R157). -/
def carryOut (a b : Byte) : Bool := decide (a.toNat + b.toNat > 255)

/-- No borrow in `a - b`: "VF == 1 iff a >= b" (R158); 8xy7 uses it with the operands swapped (R161; D7, log 19). -/
def noBorrow (a b : Byte) : Bool := decide (a.toNat ≥ b.toNat)

/-- The bit 8xy6 shifts out: bit 0 (R159). -/
def bitOutRight (a : Byte) : Bool := a.getLsbD 0

/-- The bit 8xyE shifts out: bit 7 (R162). -/
def bitOutLeft (a : Byte) : Bool := a.getLsbD 7

/-- The shared sequence of 8xy4, 8xy5, 8xy6, 8xy7 and 8xyE (R152). `flag` comes from the pre-operation values; `result`
is the arithmetic as a function of the registers it reads. Under `SEQUENTIAL` it reads them after the flag is written;
under the two snapshot orders it reads the pre-operation registers (D5, log 4). -/
def flagThenResult (s : State) (x : Reg) (flag : Bool) (result : State → Byte) : State :=
  match s.config.aluOrder with
  | .sequential => (s.setVF (flagByte flag)).setV x (result (s.setVF (flagByte flag)))
  | .snapshotFlagFirst => (s.setVF (flagByte flag)).setV x (result s)
  | .snapshotFlagLast => (s.setV x (result s)).setVF (flagByte flag)

end Sys2Proof.Machine
end

