-- ==== Sys2Proof/Machine/Alu.lean ====
section
/-! DEFINITION. Register loads, arithmetic, logic and random (spec/42_register_alu.md). None accesses memory or raises a
fault. -/

namespace Sys2Proof.Machine

/-- `LD Vx, nn`, 6xnn (R150). -/
def execLdImm (x : Reg) (nn : Byte) (s : State) : Host.Outcome State Fault Refusal :=
  .next (s.setV x nn)

/-- `ADD Vx, nn`, 7xnn: wrapping, no flag (R151). -/
def execAddImm (x : Reg) (nn : Byte) (s : State) : Host.Outcome State Fault Refusal :=
  .next (s.setV x (s.reg x + nn))

/-- `LD Vx, Vy`, 8xy0 (R153). -/
def execLdReg (x y : Reg) (s : State) : Host.Outcome State Fault Refusal :=
  .next (s.setV x (s.reg y))

/-- `OR Vx, Vy`, 8xy1 (R154). -/
def execOrReg (x y : Reg) (s : State) : Host.Outcome State Fault Refusal :=
  .next (s.setV x (s.reg x ||| s.reg y))

/-- `AND Vx, Vy`, 8xy2 (R155). -/
def execAndReg (x y : Reg) (s : State) : Host.Outcome State Fault Refusal :=
  .next (s.setV x (s.reg x &&& s.reg y))

/-- `XOR Vx, Vy`, 8xy3 (R156). -/
def execXorReg (x y : Reg) (s : State) : Host.Outcome State Fault Refusal :=
  .next (s.setV x (s.reg x ^^^ s.reg y))

/-- `ADD Vx, Vy`, 8xy4: VF is the carry out (R157). -/
def execAddReg (x y : Reg) (s : State) : Host.Outcome State Fault Refusal :=
  .next (flagThenResult s x (carryOut (s.reg x) (s.reg y)) fun t => t.reg x + t.reg y)

/-- `SUB Vx, Vy`, 8xy5: VF is 1 when there is no borrow (R158). -/
def execSub (x y : Reg) (s : State) : Host.Outcome State Fault Refusal :=
  .next (flagThenResult s x (noBorrow (s.reg x) (s.reg y)) fun t => t.reg x - t.reg y)

/-- `SHR Vx, Vy`, 8xy6: VF is the bit shifted out (R159, R160). -/
def execShr (x y : Reg) (s : State) : Host.Outcome State Fault Refusal :=
  .next (flagThenResult s x (bitOutRight (s.reg (shiftReg s x y))) fun t => t.reg (shiftReg s x y) >>> 1)

/-- `SUBN Vx, Vy`, 8xy7: VF is 1 when the reverse subtraction does not borrow (R161). -/
def execSubn (x y : Reg) (s : State) : Host.Outcome State Fault Refusal :=
  .next (flagThenResult s x (noBorrow (s.reg y) (s.reg x)) fun t => t.reg y - t.reg x)

/-- `SHL Vx, Vy`, 8xyE: VF is the bit shifted out (R162, R160). -/
def execShl (x y : Reg) (s : State) : Host.Outcome State Fault Refusal :=
  .next (flagThenResult s x (bitOutLeft (s.reg (shiftReg s x y))) fun t => t.reg (shiftReg s x y) <<< 1)

/-- `RND Vx, nn`, Cxnn: "Vx := random_byte() & nn"; one byte is drawn, also when nn = 0 (R165). -/
def execRnd (x : Reg) (nn : Byte) (s : State) : Host.Outcome State Fault Refusal :=
  .next ((drawRandom s).2.setV x ((drawRandom s).1 &&& nn))

end Sys2Proof.Machine
end

