-- ==== Sys2Proof/Machine/Control.lean ====
section
/-! DEFINITION. Control transfer (spec/41_control_transfer.md). On entry `PC = pc_fetch + 2`. -/

namespace Sys2Proof.Machine

/-- `RET`, 00EE: "pop stack into program counter" (R132, R133). -/
def execRet (s : State) : Host.Outcome State Fault Refusal :=
  complete (match pop s with
    | .error f => .error f
    | .ok (a, s') => .ok (s'.setPc a))

/-- `JP nnn`, 1nnn: "program counter := nnn" (R134). -/
def execJp (nnn : BitVec 12) (s : State) : Host.Outcome State Fault Refusal :=
  .next (s.setPc (zextAddr nnn))

/-- `CALL nnn`, 2nnn: "push current program counter, program counter := nnn" (R130, R131). -/
def execCall (nnn : BitVec 12) (s : State) : Host.Outcome State Fault Refusal :=
  complete (match push s s.pc with
    | .error f => .error f
    | .ok s' => .ok (s'.setPc (zextAddr nnn)))

/-- `SE Vx, nn`, 3xnn: "skip next instruction if Vx == nn" (R135). -/
def execSeImm (x : Reg) (nn : Byte) (s : State) : Host.Outcome State Fault Refusal :=
  .next (s.skipIf (decide (s.reg x = nn)))

/-- `SNE Vx, nn`, 4xnn: "skip next instruction if Vx != nn" (R136). -/
def execSneImm (x : Reg) (nn : Byte) (s : State) : Host.Outcome State Fault Refusal :=
  .next (s.skipIf (decide (s.reg x ≠ nn)))

/-- `SE Vx, Vy`, 5xy0: "skip next instruction if Vx == Vy" (R137). -/
def execSeReg (x y : Reg) (s : State) : Host.Outcome State Fault Refusal :=
  .next (s.skipIf (decide (s.reg x = s.reg y)))

/-- `SNE Vx, Vy`, 9xy0: "skip next instruction if Vx != Vy" (R138). -/
def execSneReg (x y : Reg) (s : State) : Host.Outcome State Fault Refusal :=
  .next (s.skipIf (decide (s.reg x ≠ s.reg y)))

/-- `JP V0, nnn`, Bnnn: "program counter := V0 + nnn" (R139). -/
def execJpV0 (nnn : BitVec 12) (s : State) : Host.Outcome State Fault Refusal :=
  .next (s.setPc (indexedTarget s nnn))

end Sys2Proof.Machine
end

