-- ==== Sys2Proof/Machine/Display.lean ====
section
/-! DEFINITION. The framebuffer compositor (spec/44_display.md). -/

namespace Sys2Proof.Machine

/-- `FBL[l]`, the pixel of linear index l (R31). -/
def State.pixel (s : State) (l : Nat) : Bool := s.fb.getLsbD l

/-- The linear index of row y, column x: `L = y*64 + x` (R31). -/
def linearIndex (x y : Nat) : Nat := y * Config.fbW + x

/-- Where a pixel goes: a cell of the buffer, nowhere, or outside the buffer (R203). -/
inductive Placement where
  | cell (l : Nat)
  | skip
  | outside
deriving DecidableEq, Repr

/-- `place(X, Y)` under each `EDGE_MODE` (R203; D17, log 4). -/
def place (mode : Config.EdgeMode) (x y : Nat) : Placement :=
  match mode with
  | .spill => if linearIndex x y < Config.fbW * Config.fbH then .cell (linearIndex x y) else .outside
  | .fault => if x < Config.fbW ∧ y < Config.fbH then .cell (linearIndex x y) else .outside
  | .clip => if x < Config.fbW ∧ y < Config.fbH then .cell (linearIndex x y) else .skip
  | .wrap => .cell (linearIndex (x % Config.fbW) (y % Config.fbH))

/-- `if FBL[p] = 1 then VF <- 1; FBL[p] <- FBL[p] ^ 1` (R204, R205). -/
def xorPixel (s : State) (p : Nat) : State :=
  (if s.pixel p then s.setVF 1 else s).setFb (s.fb ^^^ BitVec.twoPow 2048 p)

/-- One set sprite bit at column x, row y of the screen (R205). -/
def drawBit (s : State) (x y : Nat) : Except Fault State :=
  match place s.config.edgeMode x y with
  | .cell p => .ok (xorPixel s p)
  | .skip => .ok s
  | .outside => raise (.drawRange x y s.pcFetch)

/-- Column c of a sprite row is bit 7 - c: "most-significant bit drawn leftmost" (R201). -/
def spriteBit (row : Byte) (c : Nat) : Bool := row.getLsbD (7 - c)

/-- The columns of one sprite row, in the order of the list (R205: increasing c). -/
def drawCols (row : Byte) (ox y : Nat) : List Nat → State → Except Fault State
  | [], s => .ok s
  | c :: cs, s =>
    if spriteBit row c then
      match drawBit s (ox + c) y with
      | .error f => .error f
      | .ok s' => drawCols row ox y cs s'
    else drawCols row ox y cs s

/-- The rows of a sprite, in the order of the list (R205: increasing r): each row is read, then drawn. -/
def drawRows (ox oy : Nat) : List Nat → State → Except Fault State
  | [], s => .ok s
  | r :: rs, s =>
    match memRead s (s.i.toNat + r) .read s.pcFetch with
    | .error f => .error f
    | .ok row =>
      match drawCols row ox (oy + r) (List.range Config.spriteW) s with
      | .error f => .error f
      | .ok s' => drawRows ox oy rs s'

/-- `CLS`, 00E0: "clear framebuffer, mark dirty" (R200). -/
def execCls (s : State) : Host.Outcome State Fault Refusal :=
  .next ((s.setFb 0).setDirty true)

/-- `DRW Vx, Vy, n`, Dxyn (R202 to R206): the origin from the pre-operation registers, then VF reset, then the rows
(D18, D19, D20: log 23). -/
def execDrw (x y : Reg) (n : Nat) (s : State) : Host.Outcome State Fault Refusal :=
  complete (match drawRows (originX s x) (originY s y) (List.range n) (s.setVF 0) with
    | .error f => .error f
    | .ok s' => .ok (s'.setDirty true))

end Sys2Proof.Machine
end

