-- ==== Sys2Proof/Machine/IndexMem.lean ====
section
/-! DEFINITION. Index register and memory instructions (spec/43_index_memory.md). -/

namespace Sys2Proof.Machine

/-- `LD I, nnn`, Annn (R180). -/
def execLdI (nnn : BitVec 12) (s : State) : Host.Outcome State Fault Refusal :=
  .next (s.setI (zextAddr nnn))

/-- `ADD I, Vx`, Fx1E: mod 2^16, no flag (R181; D13, log 21). -/
def execAddIX (x : Reg) (s : State) : Host.Outcome State Fault Refusal :=
  .next (s.setI (s.i + zextByte (s.reg x)))

/-- `LD F, Vx`, Fx29: "index register := font base + 5×Vx" (R182). -/
def execLdFX (x : Reg) (s : State) : Host.Outcome State Fault Refusal :=
  .next (s.setI (glyphAddress (s.reg x)))

/-- `LD B, Vx`, Fx33: the decimal digits of Vx stored at I, I+1, I+2 (R183). -/
def execLdBX (x : Reg) (s : State) : Host.Outcome State Fault Refusal :=
  complete (storeBytes (some s.pcFetch) (decimalDigits (s.reg x)) s.i.toNat s)

/-- `LD [I], Vx`, Fx55: V0 to Vx stored from I on; I is unchanged (R184; D15, log 21). -/
def execStRegs (x : Reg) (s : State) : Host.Outcome State Fault Refusal :=
  complete (storeBytes (some s.pcFetch) (regsUpTo s x) s.i.toNat s)

/-- `LD Vx, [I]`, Fx65: V0 to Vx loaded from I on; I is unchanged (R185; D15, log 21). -/
def execLdRegs (x : Reg) (s : State) : Host.Outcome State Fault Refusal :=
  complete (match readBytes s s.i.toNat (x.val + 1) with
    | .error f => .error f
    | .ok bytes => .ok (loadRegs s bytes))

end Sys2Proof.Machine
end

