-- ==== Sys2Proof/Machine/KeyTimer.lean ====
section
/-! DEFINITION. Key and timer instructions (spec/45_timers_keys.md). -/

namespace Sys2Proof.Machine

/-- `SKP Vx`, Ex9E: "skip next instruction if key Vx is pressed" (R230). -/
def execSkp (x : Reg) (s : State) : Host.Outcome State Fault Refusal :=
  complete (match keyOperand s x with
    | .error f => .error f
    | .ok k => .ok (s.skipIf s.keys[k.val]))

/-- `SKNP Vx`, ExA1: "skip next instruction if key Vx is not pressed" (R231). -/
def execSknp (x : Reg) (s : State) : Host.Outcome State Fault Refusal :=
  complete (match keyOperand s x with
    | .error f => .error f
    | .ok k => .ok (s.skipIf (!s.keys[k.val])))

/-- `LD Vx, DT`, Fx07: "Vx := delay timer" (R232). -/
def execLdXDt (x : Reg) (s : State) : Host.Outcome State Fault Refusal :=
  .next (s.setV x s.dt)

/-- `LD Vx, K`, Fx0A: enter the key-wait state targeting x; V[x] is not written by this step (R233). -/
def execLdXK (x : Reg) (s : State) : Host.Outcome State Fault Refusal :=
  .next (s.startWait x)

/-- `LD DT, Vx`, Fx15: "delay timer := Vx" (R235). -/
def execLdDtX (x : Reg) (s : State) : Host.Outcome State Fault Refusal :=
  .next (s.setDt (s.reg x))

/-- `LD ST, Vx`, Fx18: "sound timer := Vx" (R236). -/
def execLdStX (x : Reg) (s : State) : Host.Outcome State Fault Refusal :=
  .next (s.setSt (s.reg x))

end Sys2Proof.Machine
end

