-- ==== Sys2Proof/Machine/Step.lean ====
section
/-! DEFINITION. One step of the core: fetch, advance, decode, execute or report (spec/40_dispatch.md R110 to R115). -/

namespace Sys2Proof.Machine

/-- One step (R113). It is "defined only when `FAULT = none`" (R110); on a halted core it is refused (R252; log 2). An
unrecognized word is reported with the address it was fetched from, and PC advances (R114). -/
def step (s : State) : Host.Outcome State Fault Refusal :=
  match s.fault with
  | some _ => .refused .coreHalted
  | none =>
    match fetchWord s with
    | .error f => .fault f
    | .ok w =>
      match decode w with
      | .instr i => exec i s.advancePc
      | .reject _ => .next (s.advancePc.report ⟨w, s.pc⟩)

/-- `s` with a table word stored big-endian where the next step fetches, at PC and PC + 1 (R54): it stands for the
host's load of a program (log 9). Cells outside memory are not written. -/
def State.withFetchWord (s : State) (nbits w : Nat) : State :=
  if s.pc.toNat + 1 < Config.memSize then
    s.setMem ((s.mem.write s.pc.toNat (highByte (tableWord nbits w))).write (s.pc.toNat + 1) (lowByte (tableWord nbits w)))
  else s

end Sys2Proof.Machine
end

