-- ==== Sys2Proof/Machine/HostOps.lean ====
section
/-! DEFINITION. The core's side of the host interface (spec/60_exceptions.md R262 to R278, spec/70_reset_and_hazards.md
R290 to R294): construct, load, tick, key event, frame consumption and the outputs, each a function of the state, and
`Session.transact`, one transaction of the host with its duties checked and FAULT recorded, and a run of transactions to its
end (spec/40_dispatch.md R120). -/

namespace Sys2Proof.Machine

/-- The code of a fault (R250; D25, log 13). -/
def Fault.code : Fault → Nat
  | .memOob _ _ _ => 1
  | .stackOverflow _ => 2
  | .stackUnderflow _ => 3
  | .keyRange _ _ => 4
  | .drawRange _ _ _ => 5

/-- The code of a report (R256; D26, log 13). -/
def Report.code (_ : Report) : Nat := 0

/-! ## Construction (R290 to R292) -/

/-- The inputs of `construct` (R270): the 80 font bytes, the fill of every other cell ("any byte, or per-cell arbitrary
values"), the seed of `RNG`, and the arguments that steps read. -/
structure ConstructArgs where
  font : Vector Byte 80
  initFill : Nat → Byte
  rngSeed : Nat
  params : Config.Params

/-- The spec's defaults (R8). -/
def ConstructArgs.default : ConstructArgs where
  font := ⟨defaultFont.toArray, by decide⟩
  initFill := fun _ => defaultFill
  rngSeed := 0
  params := Config.defaultParams

/-- `construct`: the reset state of R38 with memory as R291 and R292 give it. -/
def construct (a : ConstructArgs) : State :=
  { State.reset with
    config := a.params
    rngSeed := a.rngSeed
    mem := Memory.ofContents (contentsAt a.font.toList a.initFill) }

/-! ## Load, tick, key event, frame (R293, R262, R265, R273) -/

/-- `load(image)`: the bytes copied to MEM from 0x200; a longer image faults at 0x1000 (R293). -/
def load (image : List Byte) (s : State) : Except Fault State := storeBytes none image Config.progBase s

/-- `tick_timers()`: "decrements delay and sound timers independently, each floored at zero" (R262). -/
def tickTimers (s : State) : State :=
  (s.setDt (if s.dt = 0 then s.dt else s.dt - 1)).setSt (if s.st = 0 then s.st else s.st - 1)

/-- `key_event(k, pressed)` for a key in range: the key's state, and a press resolves a pending wait (R265, R266). -/
def keyEventInRange (k : Fin 16) (pressed : Bool) (s : State) : State :=
  if pressed && s.wait then ((s.setKey k pressed).setV s.waitReg (BitVec.ofNat 8 k.val)).endWait
  else s.setKey k pressed

/-- `key_event(k, pressed)` for any integer k: an index outside 0..15 is ignored entirely (R257, R265). The answer is the
new state and WAIT. -/
def keyEvent (k : Int) (pressed : Bool) (s : State) : State × Bool :=
  if h : 0 ≤ k ∧ k < 16 then
    let s' := keyEventInRange ⟨k.toNat, by omega⟩ pressed s
    (s', s'.wait)
  else (s, s.wait)

/-- `consume_frame()`: `out <- (FB, DIRTY); DIRTY <- 0; return out` (R273). -/
def consumeFrame (s : State) : State × (BitVec 2048 × Bool) := (s.setDirty false, (s.fb, s.dirty))

/-! ## Outputs (R275 to R277) -/

/-- The waiting output (R275). -/
def waitingOutput (s : State) : Bool := s.wait

/-- The sound-timer output (R276). -/
def soundOutput (s : State) : Byte := s.st

/-- The fault output (R277). -/
def faultOutput (s : State) : Option Fault := s.fault

/-- The events of the outcome of an operation that led from `s` to `t`: those emitted since (R13, R277). -/
def eventsSince (s t : State) : List Report := t.events.drop s.events.length

/-! ## Transactions (R270, R278) -/

/-- What the host can issue to a constructed core (R270). -/
inductive HostOp where
  | load (image : List Byte)
  | step
  | tickTimers
  | keyEvent (k : Int) (pressed : Bool)
  | consumeFrame
  | readOutputs
deriving DecidableEq, Repr

/-- What a transaction returns (R270). -/
inductive Reply where
  /-- load and tick: nothing -/
  | done
  /-- a step that ended `Ok`, with its events (R13) -/
  | ok (events : List Report)
  /-- the fatal outcome (R13) -/
  | faulted (f : Fault)
  /-- key_event: WAIT -/
  | waiting (w : Bool)
  /-- consume_frame: FB and DIRTY -/
  | frame (fb : BitVec 2048) (dirty : Bool)
  /-- WAIT, ST and FAULT of a core that has not faulted -/
  | outputs (w : Bool) (st : Byte)
  /-- FAULT of a halted core, the one thing defined on it (R251, R277; log 1) -/
  | halted (f : Fault)
deriving DecidableEq, Repr

/-- A session of the host with one core (R278): the core, and whether it has been loaded and stepped. -/
structure Session where
  core : State
  loaded : Bool
  stepped : Bool
deriving DecidableEq, Repr

/-- A session begins with construction (R290, R294). -/
def Session.start (a : ConstructArgs) : Session := ⟨construct a, false, false⟩

/-- What a fault leaves: FAULT recorded in a core that is halted; nothing else of it is defined (R251, R252; log 1). -/
def Session.haltWith (t : Session) (f : Fault) : Session × Reply := ({ t with core := t.core.halt f }, .faulted f)

/-- A transaction on a core that has not faulted. -/
def Session.transactRunning (op : HostOp) (t : Session) : Except Refusal (Session × Reply) :=
  match op with
  | .load image =>
    if t.loaded || t.stepped then .error .loadOutsideBoot
    else
      match Sys2Proof.Machine.load image t.core with
      | .ok s => .ok ({ t with core := s, loaded := true }, .done)
      | .error f => .ok (t.haltWith f)
  | .step =>
    if !t.loaded then .error .stepBeforeLoad
    else
      match Sys2Proof.Machine.step t.core with
      | .next s => .ok ({ t with core := s, stepped := true }, .ok (eventsSince t.core s))
      | .fault f => .ok (t.haltWith f)
      | .refused r => .error r
  | .tickTimers => .ok ({ t with core := Sys2Proof.Machine.tickTimers t.core }, .done)
  | .keyEvent k pressed =>
    .ok ({ t with core := (Sys2Proof.Machine.keyEvent k pressed t.core).1 },
      .waiting (Sys2Proof.Machine.keyEvent k pressed t.core).2)
  | .consumeFrame => .ok ({ t with core := (Sys2Proof.Machine.consumeFrame t.core).1 }, .frame t.core.fb t.core.dirty)
  | .readOutputs => .ok (t, .outputs (waitingOutput t.core) (soundOutput t.core))

/-- One transaction of the host (R270). On a halted core only FAULT can be read (R252, R277). A step while WAIT = 1 runs
normally (R117; log 11). -/
def Session.transact (op : HostOp) (t : Session) : Except Refusal (Session × Reply) :=
  match faultOutput t.core with
  | none => t.transactRunning op
  | some f =>
    match op with
    | .readOutputs => .ok (t, .halted f)
    | .load _ => .error .coreHalted
    | .step => .error .coreHalted
    | .tickTimers => .error .coreHalted
    | .keyEvent _ _ => .error .coreHalted
    | .consumeFrame => .error .coreHalted

/-! ## The end of a run (R120; D44, log 31) -/

/-- The three ends of a run (R120). -/
inductive RunEnd where
  /-- (a) the word at PC is a jump to itself -/
  | idle
  /-- (b) the core waits for a key, and the host has no key press left to deliver -/
  | waiting
  /-- (c) a fatal fault was raised, which "is not a result" -/
  | faulted (f : Fault)
deriving DecidableEq, Repr

/-- (a): "the word at PC is `1nnn` with `nnn = PC`". -/
def State.isIdle (s : State) : Bool :=
  match fetchWord s with
  | .error _ => false
  | .ok w => decide (fieldF w = 0x1#4) && decide ((fieldNNN w).toNat = s.pc.toNat)

/-- The operation delivers a key press: a press of a key in range, since any other index is ignored (R257, R265). -/
def HostOp.isPress : HostOp → Bool
  | .keyEvent k pressed => decide (0 ≤ k) && decide (k < 16) && pressed
  | .load _ => false
  | .step => false
  | .tickTimers => false
  | .consumeFrame => false
  | .readOutputs => false

/-- The end that the session has reached, where `ops` is what the host has left to issue. Before the load a run has not
begun, so only a fault ends it there (log 31). -/
def Session.runEnd (ops : List HostOp) (t : Session) : Option RunEnd :=
  match faultOutput t.core with
  | some f => some (.faulted f)
  | none =>
    if !t.loaded then none
    else if t.core.isIdle then some .idle
    else if waitingOutput t.core && !ops.any HostOp.isPress then some .waiting
    else none

/-- A run: the host issues its operations in order until the first end of R120, which is answered with the session at
that point, "the run's result". With no end reached "the host ends it by stopping": the answer is `none`. An operation
outside the spec refuses the run (R278). -/
def Session.run : List HostOp → Session → Except Refusal (Session × Option RunEnd)
  | [], t => .ok (t, t.runEnd [])
  | op :: ops, t =>
    match t.runEnd (op :: ops) with
    | some e => .ok (t, some e)
    | none =>
      match t.transact op with
      | .error r => .error r
      | .ok (t', _) => Session.run ops t'

end Sys2Proof.Machine
end

