-- ==== Sys2Proof/Safety.lean ====
section
/-! DEFINITION. The terms that claims about the core use: the invariant of its states, what an instruction leaves
unchanged, the tables of spec/10_state.md R22 and R25, the pixels of a sprite (spec/44_display.md), and the end of a run
(spec/40_dispatch.md R120). -/

namespace Sys2Proof.Machine

/-! ## The invariant -/

/-- What holds of every core that has not faulted: memory is canonical, PC is at most 0x10FE ("The highest PC a step can
leave", R26), every stack slot is at most 0x1000 (the highest return address a CALL pushes: R132, R56), and FAULT is
none. -/
abbrev State.Inv (s : State) : Prop :=
  s.mem.wf = true ∧ s.pc.toNat ≤ 0x10FE ∧ (∀ k : Fin 16, s.stack[k.val].toNat ≤ 0x1000) ∧ s.fault = none

/-! ## Frames -/

/-- Every byte of memory reads as before. -/
def SameMemory (s t : State) : Prop := ∀ a : Nat, t.mem.read a = s.mem.read a

/-- Every byte outside the `n` bytes from `a` on reads as before. -/
def SameMemoryOutside (a n : Nat) (s t : State) : Prop := ∀ c : Nat, c < a ∨ a + n ≤ c → t.mem.read c = s.mem.read c

/-- Every general register outside the list is unchanged. -/
def SameRegsExcept (xs : List Reg) (s t : State) : Prop := ∀ r : Reg, r ∉ xs → t.reg r = s.reg r

/-- The frame of an instruction that writes general registers only: outside the list they are unchanged, every byte of
memory reads as before, and every other field of the state is the same. -/
def OnlyRegs (xs : List Reg) (s t : State) : Prop :=
  SameRegsExcept xs s t ∧ SameMemory s t ∧ t = { s with v := t.v }

/-- The general registers an instruction writes (R22). -/
def regsWritten : Instr → List Reg
  | .cls => []
  | .ret => []
  | .jp _ => []
  | .call _ => []
  | .seImm _ _ => []
  | .sneImm _ _ => []
  | .seReg _ _ => []
  | .ldImm x _ => [x]
  | .addImm x _ => [x]
  | .ldReg x _ => [x]
  | .orReg x _ => [x]
  | .andReg x _ => [x]
  | .xorReg x _ => [x]
  | .addReg x _ => [flagReg, x]
  | .sub x _ => [flagReg, x]
  | .shr x _ => [flagReg, x]
  | .subn x _ => [flagReg, x]
  | .shl x _ => [flagReg, x]
  | .sneReg _ _ => []
  | .ldI _ => []
  | .jpV0 _ => []
  | .rnd x _ => [x]
  | .drw _ _ _ => [flagReg]
  | .skp _ => []
  | .sknp _ => []
  | .ldXDt x => [x]
  | .ldXK _ => []
  | .ldDtX _ => []
  | .ldStX _ => []
  | .addIX _ => []
  | .ldFX _ => []
  | .ldBX _ => []
  | .stRegs _ => []
  | .ldRegs x => (List.finRange 16).filter fun r => r.val ≤ x.val

/-! ## PC after a step (R25) -/

/-- The condition of a skip, for an instruction that is one (R135 to R138, R230, R231). -/
def skipCondition (s : State) : Instr → Option Bool
  | .seImm x nn => some (decide (s.reg x = nn))
  | .sneImm x nn => some (decide (s.reg x ≠ nn))
  | .seReg x y => some (decide (s.reg x = s.reg y))
  | .sneReg x y => some (decide (s.reg x ≠ s.reg y))
  | .skp x => some (s.keys.toList.getD (s.reg x).toNat false)
  | .sknp x => some (!s.keys.toList.getD (s.reg x).toNat false)
  | .cls => none
  | .ret => none
  | .jp _ => none
  | .call _ => none
  | .ldImm _ _ => none
  | .addImm _ _ => none
  | .ldReg _ _ => none
  | .orReg _ _ => none
  | .andReg _ _ => none
  | .xorReg _ _ => none
  | .addReg _ _ => none
  | .sub _ _ => none
  | .shr _ _ => none
  | .subn _ _ => none
  | .shl _ _ => none
  | .ldI _ => none
  | .jpV0 _ => none
  | .rnd _ _ => none
  | .drw _ _ _ => none
  | .ldXDt _ => none
  | .ldXK _ => none
  | .ldDtX _ => none
  | .ldStX _ => none
  | .addIX _ => none
  | .ldFX _ => none
  | .ldBX _ => none
  | .stRegs _ => none
  | .ldRegs _ => none

/-- The value of PC after a step that does not fault, as a number: the table of R25, for the instruction the step
executed in state `s` (PC not yet advanced). -/
def pcAfter (s : State) (d : Decoded) : Nat :=
  match d with
  | .instr (.jp nnn) => nnn.toNat
  | .instr (.call nnn) => nnn.toNat
  | .instr .ret => (s.stack.toList.getD (s.sp.val - 1) 0).toNat
  | .instr (.jpV0 nnn) => nnn.toNat + (s.reg 0).toNat
  | .instr i => if skipCondition s i = some true then s.pc.toNat + 4 else s.pc.toNat + 2
  | .reject _ => s.pc.toNat + 2

/-! ## Sprites -/

/-! The geometry of R201 to R203 is written out here in numerals, apart from the functions of Machine/Display.lean that the
instruction uses (`spriteBit`, `originX`, `originY`, `place`), so that a claim in these terms speaks about those
functions too. -/

/-- Row r, column c of the sprite that I points to is a set bit: bit 7 - c of `MEM[I + r]` (R201). -/
def spriteAt (s : State) (r c : Nat) : Bool := decide ((s.mem.read (s.i.toNat + r)).toNat / 2 ^ (7 - c) % 2 = 1)

/-- What becomes of the pixel in column X, row Y under each `EDGE_MODE` (R203; D17, log 4). -/
def edgePlace (mode : Config.EdgeMode) (X Y : Nat) : Placement :=
  match mode with
  | .spill => if Y * 64 + X < 2048 then .cell (Y * 64 + X) else .outside
  | .fault => if X < 64 ∧ Y < 32 then .cell (Y * 64 + X) else .outside
  | .clip => if X < 64 ∧ Y < 32 then .cell (Y * 64 + X) else .skip
  | .wrap => .cell (Y % 32 * 64 + X % 64)

/-- Where Dxyn puts the set bit at row r, column c: the origin is (V[x] mod 64, V[y] mod 32) (R202, R203). -/
def spritePlace (s : State) (x y : Reg) (r c : Nat) : Placement :=
  edgePlace s.config.edgeMode ((s.reg x).toNat % 64 + c) ((s.reg y).toNat % 32 + r)

/-- Row r of the sprite is read inside memory and none of its set bits among the first `cols` columns is placed outside
the buffer (R205). -/
def rowDrawable (s : State) (x y : Reg) (r cols : Nat) : Prop :=
  s.i.toNat + r < 0x1000 ∧ ∀ c < cols, spriteAt s r c = true → spritePlace s x y r c ≠ .outside

/-- The sprite of n rows can be drawn: no fault condition of R205 applies. -/
def drawable (s : State) (x y : Reg) (n : Nat) : Prop := ∀ r < n, rowDrawable s x y r 8

/-- The pixel l is the target of a placed set bit of the n-row sprite. -/
def spriteHits (s : State) (x y : Reg) (n l : Nat) : Prop :=
  ∃ r < n, ∃ c < 8, spriteAt s r c = true ∧ spritePlace s x y r c = .cell l

/-! ## The end of a run (R120) -/

/-- (a) Idle: the word at PC is `1nnn` with `nnn = PC`. -/
def State.Idle (s : State) : Prop :=
  ∃ w, fetchWord s = .ok w ∧ fieldF w = 0x1#4 ∧ (fieldNNN w).toNat = s.pc.toNat

/-- (b) No key press is left among the operations the host still has: none of them presses a key in range. -/
def NoPressLeft (ops : List HostOp) : Prop := ∀ k : Int, 0 ≤ k → k < 16 → HostOp.keyEvent k true ∉ ops

/-- `k` steps that no fault and no refusal ended: "the state after a stated number of steps" (R120). A run of the host's
operations to its first end is `Session.run`. -/
def RunsTo (k : Nat) (s t : State) : Prop :=
  Host.Core.run ⟨State, Fault, Refusal, step, State.reset⟩ k s = .next t

end Sys2Proof.Machine
end

