-- ==== Sys2Proof/Certificates/Slice0/Obligations.lean ====
section
/-! DEFINITION. The statements for the provers. Each docstring names the rule of spec/ it formalises, and the decision of
spec/92_eei_decisions.md (with its log entry) where it rests on one. -/

open Sys2Proof Sys2Proof.Machine

/-! ## Encoding -/

/-- Words written out bit by bit from spec/30_encoding.md R82 and R85 decode to the instructions they stand for. The
selectors of family 8 and the whole-word match of family 0 are D8 and D9 (log 18), and the low nibble of 0x5123 is not
examined by D10 (log 17). -/
def Obligations.DecodesWordsWrittenOutFromTheSpec : Prop :=
  decode 0b0000000011100000#16 = .instr .cls ∧ decode 0b0000000011101110#16 = .instr .ret ∧
  decode 0b0010001000010000#16 = .instr (.call 0x210#12) ∧ decode 0b0011001100000011#16 = .instr (.seImm 3 0x03#8) ∧
  decode 0b0101000100100011#16 = .instr (.seReg 1 2) ∧ decode 0b0111000000000001#16 = .instr (.addImm 0 0x01#8) ∧
  decode 0b1000000000010111#16 = .instr (.subn 0 1) ∧ decode 0b1000000000001110#16 = .instr (.shl 0 0) ∧
  decode 0b1010001100000000#16 = .instr (.ldI 0x300#12) ∧ decode 0b1101000000010010#16 = .instr (.drw 0 1 2) ∧
  decode 0b1110000010100001#16 = .instr (.sknp 0) ∧ decode 0b1111001001100101#16 = .instr (.ldRegs 2) ∧
  decode 0b1000000000001000#16 = .reject (.unknownAlu 0x8008#16) ∧
  decode 0b0000000100100011#16 = .reject (.unknownSystem 0x0123#16)

/-- Decoding the encoding of any well-formed instruction gives it back, with every operand (R82, R85), as a word and as
bytes in memory order (R54). -/
def Obligations.DecodeOfEncodeIsTheInstruction : Prop :=
  ∀ i : Instr, i.wellFormed = true → decode (encode i) = .instr i ∧ decodeBytes (encodeBytes i) = (.instr i, [])

/-- The other direction: a word that decodes is the encoding of its instruction, but for bits 3:0 of families 5 and 9,
which are not examined (R89; D10, log 17). -/
def Obligations.DecodedWordIsTheEncoding : Prop :=
  ∀ (w : Word) (i : Instr), decode w = .instr i →
    i.wellFormed = true ∧
    ((fieldF w ≠ 0x5#4 ∧ fieldF w ≠ 0x9#4 → encode i = w) ∧
     (fieldF w = 0x5#4 ∨ fieldF w = 0x9#4 → encode i = w &&& 0xFFF0#16))

/-- The unrecognized words are exactly those of the table of R87 (derived there from R85; D8 to D10, logs 17, 18). -/
def Obligations.UnrecognizedWordsAreTheTable : Prop :=
  ∀ w : Word, (∃ e, decode w = .reject e) ↔
    ((fieldF w = 0x0#4 ∧ w ≠ 0x00E0#16 ∧ w ≠ 0x00EE#16) ∨
     (fieldF w = 0x8#4 ∧ fieldN w ∈ [0x8, 0x9, 0xA, 0xB, 0xC, 0xD, 0xF]) ∨
     (fieldF w = 0xE#4 ∧ fieldNN w ∉ [0x9E#8, 0xA1#8]) ∨
     (fieldF w = 0xF#4 ∧
      fieldNN w ∉ [0x07#8, 0x0A#8, 0x15#8, 0x18#8, 0x1E#8, 0x29#8, 0x33#8, 0x55#8, 0x65#8]))

/-! ## The step -/

/-- When the bytes at PC decode to an instruction, the step is `exec` of it in the state whose PC is advanced by 2 and
which is otherwise the same (R111 to R113). -/
def Obligations.StepRunsTheDecodedInstruction : Prop :=
  ∀ (s : State) (i : Instr), s.fault = none → s.pc.toNat + 1 < 0x1000 →
    decode (wordOfBytes (s.mem.read s.pc.toNat) (s.mem.read (s.pc.toNat + 1))) = .instr i →
    step s = exec i { s with pc := s.pc + 2 }

/-- An unrecognized word is reported with its address, PC advances, and nothing else changes (R114). That the report is
appended to the field `events` is the model's own form of the event (log 3, DESIGN CHOICE). -/
def Obligations.StepReportsAnUnrecognizedWord : Prop :=
  ∀ (s : State) (w : Word) (e : DecodeError), s.fault = none → s.pc.toNat + 1 < 0x1000 →
    w = wordOfBytes (s.mem.read s.pc.toNat) (s.mem.read (s.pc.toNat + 1)) → decode w = .reject e →
    step s = .next { s with pc := s.pc + 2, events := s.events ++ [⟨w, s.pc⟩] }

/-- The fetch reads the byte at PC, then the byte at PC + 1, big-endian (R54), and a fetch with PC >= 0xFFF faults: at PC
when PC >= 0x1000, at 0x1000 when PC = 0xFFF (R56; the fault at 0xFFF is the spec's own decision D43, log 15). A fault is
an outcome with no next state, so PC is not advanced (D24, log 1). -/
def Obligations.FetchIsBigEndianAndBounded : Prop :=
  ∀ s : State, s.fault = none →
    (s.pc.toNat < 0xFFF → ∃ w, fetchWord s = .ok w ∧
      w.toNat = (s.mem.read s.pc.toNat).toNat * 256 + (s.mem.read (s.pc.toNat + 1)).toNat) ∧
    (0x1000 ≤ s.pc.toNat → step s = .fault (.memOob s.pc.toNat .fetch (some s.pc))) ∧
    (s.pc.toNat = 0xFFF → step s = .fault (.memOob 0x1000 .fetch (some s.pc)))

/-- PC after a step that does not fault is the table of R25 (derived there; the Bnnn row rests on D12, log 20). -/
def Obligations.PcAfterStepIsTheTable : Prop :=
  ∀ (s t : State) (w : Word), s.fault = none → fetchWord s = .ok w → step s = .next t →
    t.pc.toNat = pcAfter s (decode w)

/-- No instruction is refused, and no step of a core whose FAULT is none is: each ends in a next state or a fault
(R13, R113). -/
def Obligations.NothingIsRefusedWhileFaultIsNone : Prop :=
  (∀ (i : Instr) (s : State) (r : Refusal), exec i s ≠ .refused r) ∧
  (∀ (s : State) (r : Refusal), s.fault = none → step s ≠ .refused r)

/-- An instruction faults only with a fault of R250's table that names it, for the cause the table gives, and the fault
records pc_fetch, which is PC - 2 while it executes. The address of a MEM_OOB is one that the instruction accesses, and
the position of a DRAW_RANGE is that of a set sprite bit which EDGE_MODE places outside the buffer (D11, D16, D17, D25:
logs 4, 12, 13, 14, 22). -/
def Obligations.FaultsHaveTheCausesOfTheTable : Prop :=
  ∀ (i : Instr) (s : State) (f : Fault), exec i s = .fault f →
    match f with
    | .memOob a k p => 0x1000 ≤ a ∧ p = some (s.pc - 2) ∧
        ((k = .read ∧ ((∃ x y n, i = .drw x y n ∧ ∃ j < n, a = s.i.toNat + j) ∨
            ∃ x, i = .ldRegs x ∧ ∃ j ≤ x.val, a = s.i.toNat + j)) ∨
         (k = .write ∧ ((∃ x, i = .ldBX x ∧ ∃ j ≤ 2, a = s.i.toNat + j) ∨
            ∃ x, i = .stRegs x ∧ ∃ j ≤ x.val, a = s.i.toNat + j)))
    | .stackOverflow p => p = s.pc - 2 ∧ s.sp.val = 16 ∧ ∃ nnn, i = .call nnn
    | .stackUnderflow p => p = s.pc - 2 ∧ s.sp.val = 0 ∧ i = .ret
    | .keyRange k p => p = s.pc - 2 ∧ 16 ≤ k.toNat ∧ ∃ x, s.reg x = k ∧ (i = .skp x ∨ i = .sknp x)
    | .drawRange px py p => p = s.pc - 2 ∧ edgePlace s.config.edgeMode px py = .outside ∧
        ∃ x y n, i = .drw x y n ∧ ∃ r < n, ∃ c < 8, spriteAt s r c = true ∧
          px = (s.reg x).toNat % 64 + c ∧ py = (s.reg y).toNat % 32 + r

/-! ## Invariants -/

/-- The state after reset (R38; its values beyond PC are D29, log 8) meets the invariant. -/
def Obligations.ResetMeetsTheInvariant : Prop := State.reset.Inv

/-- Every step that answers a next state keeps the invariant: memory stays canonical, PC stays at most 0x10FE (R26),
every stack slot stays at most 0x1000, and FAULT stays none. (0x10FE is the highest target of Bnnn, D12, log 20.) -/
def Obligations.StepKeepsTheInvariant : Prop :=
  ∀ s t : State, s.Inv → step s = .next t → t.Inv

/-- Every transaction of the host that leaves FAULT none keeps the invariant (R270). -/
def Obligations.TransactionKeepsTheInvariant : Prop :=
  ∀ (op : HostOp) (a b : Session) (r : Reply), a.core.Inv → a.transact op = .ok (b, r) → b.core.fault = none →
    b.core.Inv

/-! ## Rules over all instructions -/

/-- An instruction writes no general register that R22's table does not list for it (derived there). -/
def Obligations.RegistersWrittenAreTheTable : Prop :=
  ∀ (i : Instr) (s t : State), exec i s = .next t → SameRegsExcept (regsWritten i) s t

/-- Every instruction but Fx33 and Fx55 leaves every byte of memory as it was (R51, derived there). -/
def Obligations.OnlyTheStoresWriteMemory : Prop :=
  ∀ (i : Instr) (s t : State), (∀ x, i ≠ .ldBX x) → (∀ x, i ≠ .stRegs x) → exec i s = .next t → SameMemory s t

/-- "Only 2nnn writes it and only 00EE reads it" (R27): no other instruction changes the stack or SP; 00EE changes no
slot; and an instruction other than 00EE ends the same, in the same fault or in the same next state but for the stack
itself, whatever the stack holds. -/
def Obligations.OnlyCallAndRetTouchTheStack : Prop :=
  (∀ (i : Instr) (s t : State), exec i s = .next t → (∀ nnn, i ≠ .call nnn) →
    t.stack = s.stack ∧ (i ≠ .ret → t.sp = s.sp)) ∧
  (∀ (i : Instr) (s : State) (k : Vector Word 16), i ≠ .ret →
    (∀ f, exec i s = .fault f → exec i { s with stack := k } = .fault f) ∧
    (∀ t, exec i s = .next t → ∃ u, exec i { s with stack := k } = .next u ∧ { u with stack := t.stack } = t))

/-- The writers of the other fields. I is written by Annn, Fx1E and Fx29 only (R23); FB is mutated by 00E0 and Dxyn only
(R31), which alone set DIRTY, and no instruction clears it (R32; D20, log 23); Cxnn draws one random byte and no other
instruction draws any (R118, R165); no instruction changes the seed, the configuration, the keys, FAULT or the events
(R33, R116, R290). The draw counter `rngDraws` (log 5, DESIGN CHOICE) and `events` (log 3, DESIGN CHOICE) are the model's
own fields. That Fx55 and Fx65 leave I alone is D15 (log 21). -/
def Obligations.EveryFieldHasItsOwnWriters : Prop :=
  ∀ (i : Instr) (s t : State), exec i s = .next t →
    (t.i ≠ s.i → (∃ nnn, i = .ldI nnn) ∨ (∃ x, i = .addIX x) ∨ ∃ x, i = .ldFX x) ∧
    ((i = .cls ∨ ∃ x y n, i = .drw x y n) → t.dirty = true) ∧
    (¬ (i = .cls ∨ ∃ x y n, i = .drw x y n) → t.fb = s.fb ∧ t.dirty = s.dirty) ∧
    ((∃ x nn, i = .rnd x nn) → t.rngDraws = s.rngDraws + 1) ∧
    ((∀ x nn, i ≠ .rnd x nn) → t.rngDraws = s.rngDraws) ∧
    t.rngSeed = s.rngSeed ∧ t.config = s.config ∧ t.keys = s.keys ∧ t.fault = s.fault ∧ t.events = s.events

/-- Over all transactions that leave FAULT none, a timer changes only in a tick or in a step of the instruction that sets
it (R237, R116). After a fault no value is defined (R251; log 1). -/
def Obligations.TimersChangeOnlyByTickOrTheirInstruction : Prop :=
  ∀ (op : HostOp) (a b : Session) (r : Reply), a.transact op = .ok (b, r) → b.core.fault = none →
    (b.core.dt ≠ a.core.dt → op = .tickTimers ∨
      (op = .step ∧ ∃ w x, fetchWord a.core = .ok w ∧ decode w = .instr (.ldDtX x) ∧ b.core.dt = a.core.reg x)) ∧
    (b.core.st ≠ a.core.st → op = .tickTimers ∨
      (op = .step ∧ ∃ w x, fetchWord a.core = .ok w ∧ decode w = .instr (.ldStX x) ∧ b.core.st = a.core.reg x))

/-- Over all transactions that leave FAULT none, the key-wait state is entered only by a step of Fx0A, with its x as the
target, and left only by the press of a key in range (R34, R233, R261; that an index out of range does not resolve it is
D39, log 26). After a fault no value is defined (R251; log 1). -/
def Obligations.KeyWaitIsEnteredByFx0AAndLeftByAPress : Prop :=
  ∀ (op : HostOp) (a b : Session) (r : Reply), a.transact op = .ok (b, r) → b.core.fault = none →
    (a.core.wait = false → b.core.wait = true →
      op = .step ∧ ∃ w x, fetchWord a.core = .ok w ∧ decode w = .instr (.ldXK x) ∧ b.core.waitReg = x) ∧
    (a.core.wait = true → b.core.wait = false → ∃ k : Int, 0 ≤ k ∧ k < 16 ∧ op = .keyEvent k true)

/-- No instruction reads ST, DIRTY, WAIT, WAIT_REG or the events (R30, R32, R37): from two states that differ only there
every instruction ends in the same fault, or in next states that agree on everything else. That an instruction runs while
WAIT = 1 as it does otherwise is D21 (R117, log 11), and the events are the model's own field (log 3). -/
def Obligations.NoInstructionReadsTheHostsOutputs : Prop :=
  ∀ (i : Instr) (s : State) (b : Byte) (d w : Bool) (x : Reg) (es : List Report),
    (∀ f, exec i s = .fault f →
      exec i { s with st := b, dirty := d, wait := w, waitReg := x, events := es } = .fault f) ∧
    (∀ t, exec i s = .next t → ∃ u,
      exec i { s with st := b, dirty := d, wait := w, waitReg := x, events := es } = .next u ∧
      { u with st := t.st, dirty := t.dirty, wait := t.wait, waitReg := t.waitReg, events := t.events } = t)

/-! ## Control transfer -/

/-- 1nnn sets PC to nnn and changes nothing else; a jump to its own address changes nothing at all and leaves the core
steppable; a jump to 0xFFF faults at the next fetch (R134). -/
def Obligations.JumpGoesToItsAddress : Prop :=
  (∀ w : Word, fieldF w = 0x1#4 → decode w = .instr (.jp (fieldNNN w))) ∧
  (∀ (nnn : BitVec 12) (s : State), ∃ t, exec (.jp nnn) s = .next t ∧ t.pc.toNat = nnn.toNat ∧ t = { s with pc := t.pc }) ∧
  (∀ (s : State) (w : Word) (nnn : BitVec 12), s.fault = none → fetchWord s = .ok w → decode w = .instr (.jp nnn) →
    nnn.toNat = s.pc.toNat → step s = .next s) ∧
  (∀ s t : State, s.fault = none → exec (.jp 0xFFF#12) s = .next t → ∃ f, step t = .fault f)

/-- An idle core stays as it is for any number of steps, and a run of the host's operations ends at the first of: (a) idle,
(b) waiting with no key press left to deliver, (c) a fault. Where no end is reached the next operation is issued, and with
none left the host has stopped (R120, the spec's own definition, D44; that (a) and (b) end a run only once the image is
loaded is the model's choice: log 31). -/
def Obligations.IdleCoreStaysAsItIs : Prop :=
  (∀ (s : State) (k : Nat), s.fault = none → s.Idle → RunsTo k s s) ∧
  (∀ (ops : List HostOp) (a : Session) (f : Fault), a.core.fault = some f → a.run ops = .ok (a, some (.faulted f))) ∧
  (∀ (ops : List HostOp) (a : Session), a.core.fault = none → a.loaded = true → a.core.Idle →
    a.run ops = .ok (a, some .idle)) ∧
  (∀ (ops : List HostOp) (a : Session), a.core.fault = none → a.loaded = true → ¬ a.core.Idle → a.core.wait = true →
    NoPressLeft ops → a.run ops = .ok (a, some .waiting)) ∧
  (∀ (ops : List HostOp) (a : Session), a.core.fault = none →
    (a.loaded = false ∨ (¬ a.core.Idle ∧ (a.core.wait = false ∨ ¬ NoPressLeft ops))) →
    (ops = [] → a.run ops = .ok (a, none)) ∧
    (∀ op rest, ops = op :: rest →
      (∀ e, a.transact op = .error e → a.run ops = .error e) ∧
      (∀ b r, a.transact op = .ok (b, r) → a.run ops = b.run rest)))

/-- 2nnn: with SP below 16 the advanced PC goes to STACK[SP], SP counts up, PC is nnn, and nothing else changes; with
SP = 16 it faults with STACK_OVERFLOW (R130, R131; D11, log 14). -/
def Obligations.CallPushesTheAdvancedPc : Prop :=
  ∀ (nnn : BitVec 12) (s : State),
    (s.sp.val < 16 → ∃ t, exec (.call nnn) s = .next t ∧ t.pc.toNat = nnn.toNat ∧ t.sp.val = s.sp.val + 1 ∧
      (∀ k : Fin 16, t.stack[k.val] = if k.val = s.sp.val then s.pc else s.stack[k.val]) ∧
      SameMemory s t ∧ t = { s with pc := t.pc, sp := t.sp, stack := t.stack }) ∧
    (s.sp.val = 16 → exec (.call nnn) s = .fault (.stackOverflow (s.pc - 2)))

/-- 00EE: with SP above 0, SP counts down, PC is the slot it then points to, and nothing else changes (the slot keeps its
value); with SP = 0 it faults with STACK_UNDERFLOW (R132, R133; D11, log 14). -/
def Obligations.ReturnPopsIntoPc : Prop :=
  ∀ s : State,
    (∀ k : Fin 16, s.sp.val = k.val + 1 → ∃ t, exec .ret s = .next t ∧ t.pc = s.stack[k.val] ∧ t.sp.val = k.val ∧
      SameMemory s t ∧ t = { s with pc := t.pc, sp := t.sp }) ∧
    (s.sp.val = 0 → exec .ret s = .fault (.stackUnderflow (s.pc - 2)))

/-- A CALL, and any later RET that pops the entry it pushed, leave PC at the instruction after the call and SP as before
the call (R142, derived there). Of the state t' before the RET only SP and that entry are asked to be as the CALL left
them: the subroutine may itself have called, and everything else may have changed. -/
def Obligations.ReturnComesBackAfterTheCall : Prop :=
  ∀ (nnn : BitVec 12) (k : Fin 16) (s : State), s.sp.val = k.val → ∃ t, exec (.call nnn) s = .next t ∧
    ∀ t' : State, t'.sp = t.sp → t'.stack[k.val] = t.stack[k.val] →
      ∃ u, exec .ret t' = .next u ∧ u.pc = s.pc ∧ u.sp = s.sp

/-- 3xnn skips when V[x] = nn, 4xnn when V[x] != nn: PC counts up by 2 more; nothing else changes (R135, R136). -/
def Obligations.ImmediateSkipsCompareVx : Prop :=
  (∀ w : Word, fieldF w = 0x3#4 → decode w = .instr (.seImm (fieldX w) (fieldNN w))) ∧
  (∀ w : Word, fieldF w = 0x4#4 → decode w = .instr (.sneImm (fieldX w) (fieldNN w))) ∧
  ∀ (x : Reg) (nn : Byte) (s : State),
    exec (.seImm x nn) s = .next (if s.reg x = nn then { s with pc := s.pc + 2 } else s) ∧
    exec (.sneImm x nn) s = .next (if s.reg x = nn then s else { s with pc := s.pc + 2 })

/-- 5xy0 skips when V[x] = V[y], 9xy0 when V[x] != V[y]; bits 3:0 are not examined (R137, R138; D10, log 17). -/
def Obligations.RegisterSkipsCompareVxWithVy : Prop :=
  (∀ w : Word, fieldF w = 0x5#4 → decode w = .instr (.seReg (fieldX w) (fieldY w))) ∧
  (∀ w : Word, fieldF w = 0x9#4 → decode w = .instr (.sneReg (fieldX w) (fieldY w))) ∧
  ∀ (x y : Reg) (s : State),
    exec (.seReg x y) s = .next (if s.reg x = s.reg y then { s with pc := s.pc + 2 } else s) ∧
    exec (.sneReg x y) s = .next (if s.reg x = s.reg y then s else { s with pc := s.pc + 2 })

/-- Bnnn sets PC to nnn + V0, not reduced mod 4096, and changes nothing else; a target of 0xFFF or more faults at the
next fetch (R139; D12, log 20). -/
def Obligations.IndexedJumpAddsV0 : Prop :=
  ∀ (nnn : BitVec 12) (s : State), ∃ t, exec (.jpV0 nnn) s = .next t ∧
    t.pc.toNat = nnn.toNat + (s.reg 0).toNat ∧ t.pc.toNat ≤ 0x10FE ∧ t = { s with pc := t.pc } ∧
    (s.fault = none → 0xFFF ≤ t.pc.toNat → step t = .fault (.memOob (max t.pc.toNat 0x1000) .fetch (some t.pc)))

/-! ## Register loads and the ALU -/

/-- 6xnn sets V[x] to nn; 7xnn sets V[x] to (V[x] + nn) mod 2^8; no flag is written and nothing else changes, for every
x, VF included (R150, R151). -/
def Obligations.ImmediateLoadAndAdd : Prop :=
  (∀ w : Word, fieldF w = 0x6#4 → decode w = .instr (.ldImm (fieldX w) (fieldNN w))) ∧
  (∀ w : Word, fieldF w = 0x7#4 → decode w = .instr (.addImm (fieldX w) (fieldNN w))) ∧
  ∀ (x : Reg) (nn : Byte) (s : State),
    (∃ t, exec (.ldImm x nn) s = .next t ∧ t.reg x = nn ∧ OnlyRegs [x] s t) ∧
    (∃ t, exec (.addImm x nn) s = .next t ∧ (t.reg x).toNat = ((s.reg x).toNat + nn.toNat) % 256 ∧ OnlyRegs [x] s t)

/-- 8xy0, 8xy1, 8xy2, 8xy3: assign, or, and, xor, bit by bit; no flag is written and nothing else changes (R153 to
R156). The selector values are D8's (log 18); the rules name them as the encodings. -/
def Obligations.AssignAndLogicOperations : Prop :=
  (∀ w : Word, fieldF w = 0x8#4 →
    (fieldN w = 0 → decode w = .instr (.ldReg (fieldX w) (fieldY w))) ∧
    (fieldN w = 1 → decode w = .instr (.orReg (fieldX w) (fieldY w))) ∧
    (fieldN w = 2 → decode w = .instr (.andReg (fieldX w) (fieldY w))) ∧
    (fieldN w = 3 → decode w = .instr (.xorReg (fieldX w) (fieldY w)))) ∧
  ∀ (x y : Reg) (s : State),
    (∃ t, exec (.ldReg x y) s = .next t ∧ t.reg x = s.reg y ∧ OnlyRegs [x] s t) ∧
    (∃ t, exec (.orReg x y) s = .next t ∧
      (∀ k < 8, (t.reg x).getLsbD k = ((s.reg x).getLsbD k || (s.reg y).getLsbD k)) ∧ OnlyRegs [x] s t) ∧
    (∃ t, exec (.andReg x y) s = .next t ∧
      (∀ k < 8, (t.reg x).getLsbD k = ((s.reg x).getLsbD k && (s.reg y).getLsbD k)) ∧ OnlyRegs [x] s t) ∧
    (∃ t, exec (.xorReg x y) s = .next t ∧
      (∀ k < 8, (t.reg x).getLsbD k = ((s.reg x).getLsbD k ^^ (s.reg y).getLsbD k)) ∧ OnlyRegs [x] s t)

/-- 8xy4, 8xy5 and 8xy7 with x and y different from F, under every ALU_ORDER: V[x] is the sum, the difference or the
reverse difference mod 256, VF is 1 iff a + b > 255, a >= b or b >= a, else 0; nothing else changes (R157, R158, R161,
R163; the polarity of 8xy7's flag is D7, log 19). With x = y too. -/
def Obligations.AddAndSubtractObeyTheirLaws : Prop :=
  ∀ (x y : Reg) (s : State), x ≠ 15 → y ≠ 15 →
    (∃ t, exec (.addReg x y) s = .next t ∧
      (t.reg x).toNat = ((s.reg x).toNat + (s.reg y).toNat) % 256 ∧
      t.reg 15 = (if (s.reg x).toNat + (s.reg y).toNat > 255 then 1 else 0) ∧ OnlyRegs [15, x] s t) ∧
    (∃ t, exec (.sub x y) s = .next t ∧
      ((t.reg x).toNat : Int) = (((s.reg x).toNat : Int) - (s.reg y).toNat) % 256 ∧
      t.reg 15 = (if (s.reg x).toNat ≥ (s.reg y).toNat then 1 else 0) ∧ OnlyRegs [15, x] s t) ∧
    (∃ t, exec (.subn x y) s = .next t ∧
      ((t.reg x).toNat : Int) = (((s.reg y).toNat : Int) - (s.reg x).toNat) % 256 ∧
      t.reg 15 = (if (s.reg y).toNat ≥ (s.reg x).toNat then 1 else 0) ∧ OnlyRegs [15, x] s t)

/-- 8xy6 and 8xyE under every ALU_ORDER and SHIFT_SRC, x and the shifted register different from F: V[x] is the shifted
value and VF the bit shifted out, as 0 or 1 (R159, R160, R162, R163; D6 and D42, logs 4, 19). -/
def Obligations.ShiftsMoveOneBitOut : Prop :=
  ∀ (x y z : Reg) (s : State), z = (if s.config.shiftSrc = .vx then x else y) → x ≠ 15 → z ≠ 15 →
    (∃ t, exec (.shr x y) s = .next t ∧ (t.reg x).toNat = (s.reg z).toNat / 2 ∧
      (t.reg 15).toNat = (s.reg z).toNat % 2 ∧ OnlyRegs [15, x] s t) ∧
    (∃ t, exec (.shl x y) s = .next t ∧ (t.reg x).toNat = (s.reg z).toNat * 2 % 256 ∧
      (t.reg 15).toNat = (s.reg z).toNat / 128 ∧ OnlyRegs [15, x] s t)

/-- The aliased operations under `ALU_ORDER = SEQUENTIAL`: the table of R164 (derived there; D5, log 4). `c` is the flag
computed from the pre-operation values; its polarity in 8xy7 is D7 and its value in 8xyE is D42 (log 19). For the shifts
`SHIFT_SRC = VX` (D6, log 4), and y plays no part. -/
def Obligations.AliasedOperationsUnderSequential : Prop :=
  ∀ (z : Reg) (s : State), s.config.aluOrder = .sequential → z ≠ 15 →
    (∀ c : Nat, c = (if (s.reg 15).toNat + (s.reg z).toNat > 255 then 1 else 0) →
      (∃ t, exec (.addReg 15 z) s = .next t ∧ (t.reg 15).toNat = (c + (s.reg z).toNat) % 256 ∧ OnlyRegs [15] s t) ∧
      (∃ t, exec (.addReg z 15) s = .next t ∧ (t.reg z).toNat = ((s.reg z).toNat + c) % 256 ∧ (t.reg 15).toNat = c ∧
        OnlyRegs [15, z] s t)) ∧
    (∃ t, exec (.addReg 15 15) s = .next t ∧
      (t.reg 15).toNat = (if 2 * (s.reg 15).toNat > 255 then 2 else 0) ∧ OnlyRegs [15] s t) ∧
    (∀ c : Int, c = (if (s.reg 15).toNat ≥ (s.reg z).toNat then 1 else 0) →
      (∃ t, exec (.sub 15 z) s = .next t ∧ ((t.reg 15).toNat : Int) = (c - (s.reg z).toNat) % 256 ∧ OnlyRegs [15] s t) ∧
      (∃ t, exec (.subn z 15) s = .next t ∧ ((t.reg z).toNat : Int) = (c - (s.reg z).toNat) % 256 ∧
        ((t.reg 15).toNat : Int) = c ∧ OnlyRegs [15, z] s t)) ∧
    (∀ c : Int, c = (if (s.reg z).toNat ≥ (s.reg 15).toNat then 1 else 0) →
      (∃ t, exec (.sub z 15) s = .next t ∧ ((t.reg z).toNat : Int) = ((s.reg z).toNat - c) % 256 ∧
        ((t.reg 15).toNat : Int) = c ∧ OnlyRegs [15, z] s t) ∧
      (∃ t, exec (.subn 15 z) s = .next t ∧ ((t.reg 15).toNat : Int) = ((s.reg z).toNat - c) % 256 ∧ OnlyRegs [15] s t)) ∧
    (∃ t, exec (.sub 15 15) s = .next t ∧ t.reg 15 = 0 ∧ OnlyRegs [15] s t) ∧
    (∃ t, exec (.subn 15 15) s = .next t ∧ t.reg 15 = 0 ∧ OnlyRegs [15] s t) ∧
    (s.config.shiftSrc = .vx → ∀ y : Reg,
      (∃ t, exec (.shr 15 y) s = .next t ∧ t.reg 15 = 0 ∧ OnlyRegs [15] s t) ∧
      (∃ t, exec (.shl 15 y) s = .next t ∧ (t.reg 15).toNat = 2 * ((s.reg 15).toNat / 128) ∧ OnlyRegs [15] s t))

/-- The aliased operations under the two snapshot orders (spec/93_implementation_defined.md part 2, the spec's own values
of ALU_ORDER, D5, log 4; the shift source is D6, log 4; the flag of 8xy7 is D7 and that of 8xyE D42, log 19). With x = F,
VF ends as the result of the pre-operation values under SNAPSHOT_FLAG_FIRST, and as the flag under SNAPSHOT_FLAG_LAST.
With y = F and x another register, V[x] ends as the result with the old VF, and VF as the flag, under both orders. -/
def Obligations.AliasedOperationsUnderSnapshots : Prop :=
  ∀ (y z : Reg) (s : State), s.config.aluOrder ≠ .sequential → z = (if s.config.shiftSrc = .vx then 15 else y) →
    (∃ t, exec (.addReg 15 y) s = .next t ∧ OnlyRegs [15] s t ∧ (t.reg 15).toNat =
      if s.config.aluOrder = .snapshotFlagFirst then ((s.reg 15).toNat + (s.reg y).toNat) % 256
      else if (s.reg 15).toNat + (s.reg y).toNat > 255 then 1 else 0) ∧
    (∃ t, exec (.sub 15 y) s = .next t ∧ OnlyRegs [15] s t ∧ ((t.reg 15).toNat : Int) =
      if s.config.aluOrder = .snapshotFlagFirst then (((s.reg 15).toNat : Int) - (s.reg y).toNat) % 256
      else if (s.reg 15).toNat ≥ (s.reg y).toNat then 1 else 0) ∧
    (∃ t, exec (.subn 15 y) s = .next t ∧ OnlyRegs [15] s t ∧ ((t.reg 15).toNat : Int) =
      if s.config.aluOrder = .snapshotFlagFirst then (((s.reg y).toNat : Int) - (s.reg 15).toNat) % 256
      else if (s.reg y).toNat ≥ (s.reg 15).toNat then 1 else 0) ∧
    (∃ t, exec (.shr 15 y) s = .next t ∧ OnlyRegs [15] s t ∧ (t.reg 15).toNat =
      if s.config.aluOrder = .snapshotFlagFirst then (s.reg z).toNat / 2 else (s.reg z).toNat % 2) ∧
    (∃ t, exec (.shl 15 y) s = .next t ∧ OnlyRegs [15] s t ∧ (t.reg 15).toNat =
      if s.config.aluOrder = .snapshotFlagFirst then (s.reg z).toNat * 2 % 256 else (s.reg z).toNat / 128) ∧
    (∀ x : Reg, x ≠ 15 →
      (∃ t, exec (.addReg x 15) s = .next t ∧ OnlyRegs [15, x] s t ∧
        (t.reg x).toNat = ((s.reg x).toNat + (s.reg 15).toNat) % 256 ∧
        t.reg 15 = if (s.reg x).toNat + (s.reg 15).toNat > 255 then 1 else 0) ∧
      (∃ t, exec (.sub x 15) s = .next t ∧ OnlyRegs [15, x] s t ∧
        ((t.reg x).toNat : Int) = (((s.reg x).toNat : Int) - (s.reg 15).toNat) % 256 ∧
        t.reg 15 = if (s.reg x).toNat ≥ (s.reg 15).toNat then 1 else 0) ∧
      (∃ t, exec (.subn x 15) s = .next t ∧ OnlyRegs [15, x] s t ∧
        ((t.reg x).toNat : Int) = (((s.reg 15).toNat : Int) - (s.reg x).toNat) % 256 ∧
        t.reg 15 = if (s.reg 15).toNat ≥ (s.reg x).toNat then 1 else 0))

/-- The shifts that name VF, beside those of `AliasedOperationsUnderSnapshots` (x = F under a snapshot order). With VF the
shifted register and x another one (SHIFT_SRC = VY, y = F): VF ends as the bit shifted out of the old VF, and V[x] as the
old VF shifted under a snapshot order, but as that new flag shifted under SEQUENTIAL. With x = F under SEQUENTIAL and
either SHIFT_SRC: VF ends as V[z] shifted, and if z = F as the new flag shifted (R152, R159, R160, R162 and
spec/93_implementation_defined.md part 2; D5, D6 and D42, logs 4, 19). -/
def Obligations.ShiftsThatNameTheFlagRegister : Prop :=
  (∀ (x : Reg) (s : State), s.config.shiftSrc = .vy → x ≠ 15 →
    (∃ t, exec (.shr x 15) s = .next t ∧ OnlyRegs [15, x] s t ∧ (t.reg 15).toNat = (s.reg 15).toNat % 2 ∧
      (t.reg x).toNat = if s.config.aluOrder = .sequential then 0 else (s.reg 15).toNat / 2) ∧
    (∃ t, exec (.shl x 15) s = .next t ∧ OnlyRegs [15, x] s t ∧ (t.reg 15).toNat = (s.reg 15).toNat / 128 ∧
      (t.reg x).toNat = if s.config.aluOrder = .sequential then 2 * ((s.reg 15).toNat / 128)
        else (s.reg 15).toNat * 2 % 256)) ∧
  (∀ (y z : Reg) (s : State), s.config.aluOrder = .sequential → z = (if s.config.shiftSrc = .vx then 15 else y) →
    (∃ t, exec (.shr 15 y) s = .next t ∧ OnlyRegs [15] s t ∧
      (t.reg 15).toNat = if z = 15 then 0 else (s.reg z).toNat / 2) ∧
    (∃ t, exec (.shl 15 y) s = .next t ∧ OnlyRegs [15] s t ∧
      (t.reg 15).toNat = if z = 15 then 2 * ((s.reg 15).toNat / 128) else (s.reg z).toNat * 2 % 256))

/-- The five flag-writing operations complete in every state, for every x and y, and change only VF and V[x] (R152, R22).
When x is not F, VF is left 0 or 1 (D42, which R152 marks, log 19). The values are those of the statements above. -/
def Obligations.FlagOperationsAlwaysComplete : Prop :=
  ∀ (x y : Reg) (s : State), ∀ i ∈ [Instr.addReg x y, .sub x y, .subn x y, .shr x y, .shl x y],
    ∃ t, exec i s = .next t ∧ OnlyRegs [15, x] s t ∧ (x ≠ 15 → t.reg 15 = 0 ∨ t.reg 15 = 1)

/-- Cxnn sets V[x] to the drawn byte and nn, whatever byte the source returns, and draws exactly one byte, also when
nn = 0 (R165). The byte is the free value `Config.randomByte`, and the draw counter is the model's own (log 5). -/
def Obligations.RandomByteIsMasked : Prop :=
  (∀ w : Word, fieldF w = 0xC#4 → decode w = .instr (.rnd (fieldX w) (fieldNN w))) ∧
  ∀ (x : Reg) (nn : Byte) (s : State), ∃ t, exec (.rnd x nn) s = .next t ∧
    t.reg x = Config.randomByte s.rngSeed s.rngDraws &&& nn ∧ t.rngDraws = s.rngDraws + 1 ∧
    (∀ k < 8, nn.getLsbD k = false → (t.reg x).getLsbD k = false) ∧
    SameRegsExcept [x] s t ∧ SameMemory s t ∧ t = { s with v := t.v, rngDraws := t.rngDraws }

/-! ## Index register and memory -/

/-- Annn sets I to nnn and changes nothing else (R180). -/
def Obligations.LoadIndexTakesAnyAddress : Prop :=
  (∀ w : Word, fieldF w = 0xA#4 → decode w = .instr (.ldI (fieldNNN w))) ∧
  ∀ (nnn : BitVec 12) (s : State), ∃ t, exec (.ldI nnn) s = .next t ∧ t.i.toNat = nnn.toNat ∧ t = { s with i := t.i }

/-- Fx1E sets I to (I + V[x]) mod 2^16, Fx29 to 0x50 + 5*V[x] with all of V[x]; neither writes VF or anything else
(R181, R182; D13 and D14, log 21). -/
def Obligations.IndexArithmeticWritesOnlyTheIndex : Prop :=
  ∀ (x : Reg) (s : State),
    (∃ t, exec (.addIX x) s = .next t ∧ t.i.toNat = (s.i.toNat + (s.reg x).toNat) % 65536 ∧ t = { s with i := t.i }) ∧
    (∃ t, exec (.ldFX x) s = .next t ∧ t.i.toNat = 0x50 + 5 * (s.reg x).toNat ∧ t = { s with i := t.i })

/-- Fx33 stores the decimal digits of V[x] at I, I+1, I+2 and changes nothing else; where one of the three is 0x1000 or
more it faults at the first (R183). Memory is canonical (`Memory.wf`), which every step keeps. -/
def Obligations.DecimalDigitsAreStored : Prop :=
  (∀ w : Word, fieldF w = 0xF#4 → fieldNN w = 0x33#8 → decode w = .instr (.ldBX (fieldX w))) ∧
  ∀ (x : Reg) (s : State), s.mem.wf = true →
    (s.i.toNat + 2 < 0x1000 → ∃ t, exec (.ldBX x) s = .next t ∧
      (t.mem.read s.i.toNat).toNat = (s.reg x).toNat / 100 ∧
      (t.mem.read (s.i.toNat + 1)).toNat = (s.reg x).toNat / 10 % 10 ∧
      (t.mem.read (s.i.toNat + 2)).toNat = (s.reg x).toNat % 10 ∧
      SameMemoryOutside s.i.toNat 3 s t ∧ t = { s with mem := t.mem }) ∧
    (0x1000 ≤ s.i.toNat + 2 → exec (.ldBX x) s = .fault (.memOob (max s.i.toNat 0x1000) .write (some (s.pc - 2))))

/-- Fx55 stores V[0] to V[x] at I to I+x and changes nothing else, I included; where one address is 0x1000 or more it
faults at the first (R184; D15, log 21). -/
def Obligations.RegistersAreStoredFromTheIndex : Prop :=
  ∀ (x : Reg) (s : State), s.mem.wf = true →
    (s.i.toNat + x.val < 0x1000 → ∃ t, exec (.stRegs x) s = .next t ∧
      (∀ k : Reg, k.val ≤ x.val → t.mem.read (s.i.toNat + k.val) = s.reg k) ∧
      SameMemoryOutside s.i.toNat (x.val + 1) s t ∧ t = { s with mem := t.mem }) ∧
    (0x1000 ≤ s.i.toNat + x.val →
      exec (.stRegs x) s = .fault (.memOob (max s.i.toNat 0x1000) .write (some (s.pc - 2))))

/-- Fx65 loads V[0] to V[x] from I to I+x and changes nothing else, I included; where one address is 0x1000 or more it
faults at the first (R185; D15, log 21). -/
def Obligations.RegistersAreLoadedFromTheIndex : Prop :=
  ∀ (x : Reg) (s : State),
    (s.i.toNat + x.val < 0x1000 → ∃ t, exec (.ldRegs x) s = .next t ∧
      (∀ k : Reg, t.reg k = if k.val ≤ x.val then s.mem.read (s.i.toNat + k.val) else s.reg k) ∧
      SameMemory s t ∧ t = { s with v := t.v }) ∧
    (0x1000 ≤ s.i.toNat + x.val →
      exec (.ldRegs x) s = .fault (.memOob (max s.i.toNat 0x1000) .read (some (s.pc - 2))))

/-- Fx55 then Fx65 with the same x, I unchanged and the bytes at I..I+x unwritten in between, leave V[0] to V[x] as the
Fx55 found them, whatever else happened in between (R186, derived there). -/
def Obligations.StoreThenLoadGivesTheRegistersBack : Prop :=
  ∀ (x : Reg) (s : State), s.mem.wf = true → s.i.toNat + x.val < 0x1000 → ∃ t, exec (.stRegs x) s = .next t ∧
    ∀ t' : State, t'.i = s.i → (∀ k ≤ x.val, t'.mem.read (s.i.toNat + k) = t.mem.read (s.i.toNat + k)) →
      ∃ u, exec (.ldRegs x) t' = .next u ∧ ∀ k : Reg, k.val ≤ x.val → u.reg k = s.reg k

/-! ## Display -/

/-- 00E0, and no other word of any family (D9, log 18), clears every pixel and sets DIRTY, whether or not a pixel changed
(D20, log 23); VF and everything else is unchanged (R200). -/
def Obligations.ClearUnlightsEveryPixel : Prop :=
  (∀ w : Word, decode w = .instr .cls ↔ w = 0x00E0#16) ∧
  ∀ s : State, ∃ t, exec .cls s = .next t ∧ (∀ l < 2048, t.pixel l = false) ∧ t.dirty = true ∧
    t = { s with fb := t.fb, dirty := true }

/-- Dxyn on a sprite that can be drawn: exactly the pixels its set bits are placed on change; VF is 1 if one of them was
lit and 0 otherwise; DIRTY is set; nothing else changes (R201 to R206, every EDGE_MODE; D17 to D20, logs 4, 23). The set
bits (bit 7 - c), the origin (mod 64, mod 32) and the four EDGE_MODEs are those that `spriteAt`, `spritePlace` and
`edgePlace` of Safety.lean write out in numerals, not the functions the instruction uses. -/
def Obligations.DrawTogglesExactlyTheSpritesPixels : Prop :=
  ∀ (x y : Reg) (n : Nat) (s : State), n ≤ 15 → drawable s x y n → ∃ t, exec (.drw x y n) s = .next t ∧
    (∀ l < 2048, (t.pixel l ≠ s.pixel l ↔ spriteHits s x y n l)) ∧
    ((∃ l < 2048, spriteHits s x y n l ∧ s.pixel l = true) → t.reg 15 = 1) ∧
    (¬ (∃ l < 2048, spriteHits s x y n l ∧ s.pixel l = true) → t.reg 15 = 0) ∧
    t.dirty = true ∧ SameRegsExcept [15] s t ∧ SameMemory s t ∧ t = { s with v := t.v, fb := t.fb, dirty := true }

/-- Dxyn faults at the first fault condition in row and column order: the first row that is outside memory, or the first
set bit that is placed outside the buffer (R203, R205, R254; D17 and D34, logs 4, 13). -/
def Obligations.DrawFaultsAtTheFirstCondition : Prop :=
  ∀ (x y : Reg) (n r : Nat) (s : State), r < n → (∀ q < r, rowDrawable s x y q 8) →
    (0x1000 ≤ s.i.toNat + r →
      exec (.drw x y n) s = .fault (.memOob (s.i.toNat + r) .read (some (s.pc - 2)))) ∧
    (∀ c < 8, rowDrawable s x y r c → spriteAt s r c = true → spritePlace s x y r c = .outside →
      exec (.drw x y n) s =
        .fault (.drawRange ((s.reg x).toNat % 64 + c) ((s.reg y).toNat % 32 + r) (s.pc - 2)))

/-- Drawing the same sprite twice at the same origin completes and gives the framebuffer back; after the second draw VF
is 1 iff some placed pixel was unlit before the first, else 0 (R207, derived there; every EDGE_MODE: D17, log 4). -/
def Obligations.DrawingTwiceCancels : Prop :=
  ∀ (x y : Reg) (n : Nat) (s t : State), n ≤ 15 → exec (.drw x y n) s = .next t →
    (t.reg x).toNat % 64 = (s.reg x).toNat % 64 → (t.reg y).toNat % 32 = (s.reg y).toNat % 32 →
    ∃ u, exec (.drw x y n) t = .next u ∧ u.fb = s.fb ∧
      ((∃ l < 2048, spriteHits s x y n l ∧ s.pixel l = false) → u.reg 15 = 1) ∧
      (¬ (∃ l < 2048, spriteHits s x y n l ∧ s.pixel l = false) → u.reg 15 = 0)

/-! ## Keys and timers -/

/-- Ex9E skips when key V[x] is pressed, ExA1 when it is not; a key value of 16 or more faults with KEY_RANGE (R230,
R231; D16, log 22). -/
def Obligations.KeySkipsReadTheKey : Prop :=
  ∀ (x : Reg) (s : State),
    (∀ k : Fin 16, (s.reg x).toNat = k.val →
      exec (.skp x) s = .next (if s.keys[k.val] = true then { s with pc := s.pc + 2 } else s) ∧
      exec (.sknp x) s = .next (if s.keys[k.val] = true then s else { s with pc := s.pc + 2 })) ∧
    (16 ≤ (s.reg x).toNat →
      exec (.skp x) s = .fault (.keyRange (s.reg x) (s.pc - 2)) ∧
      exec (.sknp x) s = .fault (.keyRange (s.reg x) (s.pc - 2)))

/-- Fx07 copies DT to V[x]; Fx15 and Fx18 copy V[x] to DT and ST; nothing else changes (R232, R235, R236). -/
def Obligations.TimerInstructionsCopyTheTimers : Prop :=
  (∀ w : Word, fieldF w = 0xF#4 →
    (fieldNN w = 0x07#8 → decode w = .instr (.ldXDt (fieldX w))) ∧
    (fieldNN w = 0x15#8 → decode w = .instr (.ldDtX (fieldX w))) ∧
    (fieldNN w = 0x18#8 → decode w = .instr (.ldStX (fieldX w)))) ∧
  ∀ (x : Reg) (s : State),
    (∃ t, exec (.ldXDt x) s = .next t ∧ t.reg x = s.dt ∧ OnlyRegs [x] s t) ∧
    exec (.ldDtX x) s = .next { s with dt := s.reg x } ∧
    exec (.ldStX x) s = .next { s with st := s.reg x }

/-- Fx0A sets WAIT and WAIT_REG = x and changes nothing else, whether or not a wait is pending and whatever keys are held
(R233; D22, log 11). -/
def Obligations.KeyWaitTargetsX : Prop :=
  ∀ (x : Reg) (s : State), exec (.ldXK x) s = .next { s with wait := true, waitReg := x }

/-! ## Host operations -/

/-- The tick decrements both timers, each floored at zero, and has no other effect (R262). -/
def Obligations.TickDecrementsBothTimers : Prop :=
  ∀ s : State, (tickTimers s).dt.toNat = s.dt.toNat - 1 ∧ (tickTimers s).st.toNat = s.st.toNat - 1 ∧
    tickTimers s = { s with dt := (tickTimers s).dt, st := (tickTimers s).st }

/-- After k ticks a timer has counted down by k, floored at zero: it reaches 0 after exactly as many ticks as its value
and stays 0 (R264, derived there). -/
def Obligations.TicksCountDownToZero : Prop :=
  ∀ (k : Nat) (s : State), (tickTimers^[k] s).dt.toNat = s.dt.toNat - k ∧ (tickTimers^[k] s).st.toNat = s.st.toNat - k

/-- A key release records the key as released, and leaves WAIT, WAIT_REG and everything else as they were; the call
returns WAIT (R266). -/
def Obligations.KeyReleaseDoesNotResolveTheWait : Prop :=
  ∀ (k : Fin 16) (s : State),
    keyEvent k.val false s = ({ s with keys := s.keys.set k.val false k.isLt }, s.wait)

/-- A key press records the key, and while waiting writes its index to V[WAIT_REG] and clears WAIT, also for a key
already held; an index out of range changes nothing (R234, R257, R265; D23 and D39, log 26). -/
def Obligations.KeyPressResolvesTheWait : Prop :=
  (∀ (k : Fin 16) (s : State), s.wait = true →
    keyEvent k.val true s =
      ({ s with keys := s.keys.set k.val true k.isLt, v := s.v.set s.waitReg.val (BitVec.ofNat 8 k.val) s.waitReg.isLt,
                wait := false }, false)) ∧
  (∀ (k : Fin 16) (s : State), s.wait = false →
    keyEvent k.val true s = ({ s with keys := s.keys.set k.val true k.isLt }, false)) ∧
  (∀ (k : Int) (pressed : Bool) (s : State), k < 0 ∨ 16 ≤ k → keyEvent k pressed s = (s, s.wait))

/-- `consume_frame` returns (FB, DIRTY), clears DIRTY and changes nothing else; after 00E0 it returns an all-unlit grid
with DIRTY true exactly once (R273, R274; D38, log 26; that 00E0 sets DIRTY on a clear buffer too is D20, log 23). -/
def Obligations.ClearedFrameIsDirtyExactlyOnce : Prop :=
  (∀ s : State, consumeFrame s = ({ s with dirty := false }, (s.fb, s.dirty))) ∧
  ∀ s t : State, exec .cls s = .next t →
    (consumeFrame t).2 = (0, true) ∧ (consumeFrame (consumeFrame t).1).2 = (0, false)

/-- `load` copies the image to memory from 0x200 and changes nothing else; an image longer than 3584 bytes faults with
MEM_OOB at 0x1000 (R293; D31, log 10). -/
def Obligations.LoadCopiesTheImage : Prop :=
  ∀ (image : List Byte) (s : State), s.mem.wf = true →
    (image.length ≤ 3584 → ∃ t, load image s = .ok t ∧ (∀ k : Fin image.length, t.mem.read (0x200 + k.val) = image[k]) ∧
      SameMemoryOutside 0x200 image.length s t ∧ t = { s with mem := t.mem }) ∧
    (3584 < image.length → load image s = .error (.memOob 0x1000 .write none))

/-- `construct` puts the font at 0x050 and the fill everywhere else, whatever font and fill it is given; with the spec's
defaults it gives `State.reset`; and the state it gives meets the invariant (R290 to R292; D3 and D4, logs 6, 7). -/
def Obligations.ConstructFillsMemory : Prop :=
  construct ConstructArgs.default = State.reset ∧
  ∀ a : ConstructArgs, (construct a).Inv ∧
    (∀ d < 16, ∀ r < 5, (construct a).mem.read (0x50 + 5 * d + r) = a.font.toList.getD (5 * d + r) 0) ∧
    (∀ c < 0x1000, c < 0x50 ∨ 0xA0 ≤ c → (construct a).mem.read c = a.initFill c) ∧
    construct a = { State.reset with config := a.params, rngSeed := a.rngSeed, mem := (construct a).mem }

/-- The reset values of R38 (the spec's reading of "all registers zeroed", D29, log 8). -/
def Obligations.ResetValuesAreTheSpecs : Prop :=
  (∀ r : Reg, State.reset.reg r = 0) ∧ State.reset.i = 0 ∧ State.reset.pc = 0x0200#16 ∧ State.reset.sp = 0 ∧
  (∀ k : Fin 16, State.reset.stack[k.val] = 0) ∧ State.reset.dt = 0 ∧ State.reset.st = 0 ∧
  (∀ l < 2048, State.reset.pixel l = false) ∧ State.reset.dirty = false ∧
  (∀ k : Fin 16, State.reset.keys[k.val] = false) ∧ State.reset.wait = false ∧ State.reset.waitReg = 0 ∧
  State.reset.fault = none

/-- A step of a loaded session: a fault becomes the outcome and the value of FAULT (R251, R277), and a next state comes
with the report events the step emitted: one for an unrecognized word, none otherwise (R113, R256). That FAULT is recorded
so is D24 (R251 marks it, log 1); the form of the report is D26 (R256 marks it, log 13), and the events of a reply are read
from the model's own field (log 3). -/
def Obligations.SessionStepSurfacesFaultsAndReports : Prop :=
  ∀ a : Session, a.loaded = true → a.core.fault = none →
    (∀ f, step a.core = .fault f → ∃ b, a.transact .step = .ok (b, .faulted f) ∧ b.core.fault = some f) ∧
    (∀ t w, fetchWord a.core = .ok w → step a.core = .next t → ∃ b, b.core = t ∧
      a.transact .step = .ok (b, .ok (match decode w with
        | .instr _ => []
        | .reject _ => [⟨w, a.core.pc⟩])))

/-- The operations the spec does not define are refused. A faulted core is halted for good: a step and every transaction
but reading FAULT are refused (R252; log 2). A second load, a load after the first step and a step before the load are
refused (R278, R294; D31, log 10). The refusals' names are the model's. -/
def Obligations.OperationsOutsideTheSpecAreRefused : Prop :=
  (∀ (a : Session) (f : Fault), a.core.fault = some f →
    step a.core = .refused .coreHalted ∧ a.transact .readOutputs = .ok (a, .halted f) ∧
    ∀ op : HostOp, op ≠ .readOutputs → a.transact op = .error .coreHalted) ∧
  (∀ a : Session, a.core.fault = none →
    (∀ image, a.loaded = true ∨ a.stepped = true → a.transact (.load image) = .error .loadOutsideBoot) ∧
    (a.loaded = false → a.transact .step = .error .stepBeforeLoad))
end

