-- ==== Sys2Proof/Laws/State.lean ====
section
/-! SUPPORT. One lemma per field per update of the state, each true by rfl, and the two reads that go through an
accessor, `reg` and `pixel`: no later proof unfolds a record update. -/

namespace Sys2Proof.Machine

/-! ## `setV` -/

@[simp] theorem setV_config (s : State) (x : Reg) (b : Byte) : (s.setV x b).config = s.config := rfl
@[simp] theorem setV_mem (s : State) (x : Reg) (b : Byte) : (s.setV x b).mem = s.mem := rfl
@[simp] theorem setV_v (s : State) (x : Reg) (b : Byte) : (s.setV x b).v = s.v.set x.val b x.isLt := rfl
@[simp] theorem setV_i (s : State) (x : Reg) (b : Byte) : (s.setV x b).i = s.i := rfl
@[simp] theorem setV_pc (s : State) (x : Reg) (b : Byte) : (s.setV x b).pc = s.pc := rfl
@[simp] theorem setV_sp (s : State) (x : Reg) (b : Byte) : (s.setV x b).sp = s.sp := rfl
@[simp] theorem setV_stack (s : State) (x : Reg) (b : Byte) : (s.setV x b).stack = s.stack := rfl
@[simp] theorem setV_dt (s : State) (x : Reg) (b : Byte) : (s.setV x b).dt = s.dt := rfl
@[simp] theorem setV_st (s : State) (x : Reg) (b : Byte) : (s.setV x b).st = s.st := rfl
@[simp] theorem setV_fb (s : State) (x : Reg) (b : Byte) : (s.setV x b).fb = s.fb := rfl
@[simp] theorem setV_dirty (s : State) (x : Reg) (b : Byte) : (s.setV x b).dirty = s.dirty := rfl
@[simp] theorem setV_keys (s : State) (x : Reg) (b : Byte) : (s.setV x b).keys = s.keys := rfl
@[simp] theorem setV_wait (s : State) (x : Reg) (b : Byte) : (s.setV x b).wait = s.wait := rfl
@[simp] theorem setV_waitReg (s : State) (x : Reg) (b : Byte) : (s.setV x b).waitReg = s.waitReg := rfl
@[simp] theorem setV_rngSeed (s : State) (x : Reg) (b : Byte) : (s.setV x b).rngSeed = s.rngSeed := rfl
@[simp] theorem setV_rngDraws (s : State) (x : Reg) (b : Byte) : (s.setV x b).rngDraws = s.rngDraws := rfl
@[simp] theorem setV_fault (s : State) (x : Reg) (b : Byte) : (s.setV x b).fault = s.fault := rfl
@[simp] theorem setV_events (s : State) (x : Reg) (b : Byte) : (s.setV x b).events = s.events := rfl
@[simp] theorem setV_pixel (s : State) (x : Reg) (b : Byte) (l : Nat) : (s.setV x b).pixel l = s.pixel l := rfl
@[simp] theorem setV_pcFetch (s : State) (x : Reg) (b : Byte) : (s.setV x b).pcFetch = s.pcFetch := rfl

/-! ## `setVF` -/

@[simp] theorem setVF_config (s : State) (b : Byte) : (s.setVF b).config = s.config := rfl
@[simp] theorem setVF_mem (s : State) (b : Byte) : (s.setVF b).mem = s.mem := rfl
@[simp] theorem setVF_v (s : State) (b : Byte) : (s.setVF b).v = s.v.set flagReg.val b flagReg.isLt := rfl
@[simp] theorem setVF_i (s : State) (b : Byte) : (s.setVF b).i = s.i := rfl
@[simp] theorem setVF_pc (s : State) (b : Byte) : (s.setVF b).pc = s.pc := rfl
@[simp] theorem setVF_sp (s : State) (b : Byte) : (s.setVF b).sp = s.sp := rfl
@[simp] theorem setVF_stack (s : State) (b : Byte) : (s.setVF b).stack = s.stack := rfl
@[simp] theorem setVF_dt (s : State) (b : Byte) : (s.setVF b).dt = s.dt := rfl
@[simp] theorem setVF_st (s : State) (b : Byte) : (s.setVF b).st = s.st := rfl
@[simp] theorem setVF_fb (s : State) (b : Byte) : (s.setVF b).fb = s.fb := rfl
@[simp] theorem setVF_dirty (s : State) (b : Byte) : (s.setVF b).dirty = s.dirty := rfl
@[simp] theorem setVF_keys (s : State) (b : Byte) : (s.setVF b).keys = s.keys := rfl
@[simp] theorem setVF_wait (s : State) (b : Byte) : (s.setVF b).wait = s.wait := rfl
@[simp] theorem setVF_waitReg (s : State) (b : Byte) : (s.setVF b).waitReg = s.waitReg := rfl
@[simp] theorem setVF_rngSeed (s : State) (b : Byte) : (s.setVF b).rngSeed = s.rngSeed := rfl
@[simp] theorem setVF_rngDraws (s : State) (b : Byte) : (s.setVF b).rngDraws = s.rngDraws := rfl
@[simp] theorem setVF_fault (s : State) (b : Byte) : (s.setVF b).fault = s.fault := rfl
@[simp] theorem setVF_events (s : State) (b : Byte) : (s.setVF b).events = s.events := rfl
@[simp] theorem setVF_pixel (s : State) (b : Byte) (l : Nat) : (s.setVF b).pixel l = s.pixel l := rfl
@[simp] theorem setVF_pcFetch (s : State) (b : Byte) : (s.setVF b).pcFetch = s.pcFetch := rfl

/-! ## `setI` -/

@[simp] theorem setI_config (s : State) (a : Word) : (s.setI a).config = s.config := rfl
@[simp] theorem setI_mem (s : State) (a : Word) : (s.setI a).mem = s.mem := rfl
@[simp] theorem setI_v (s : State) (a : Word) : (s.setI a).v = s.v := rfl
@[simp] theorem setI_i (s : State) (a : Word) : (s.setI a).i = a := rfl
@[simp] theorem setI_pc (s : State) (a : Word) : (s.setI a).pc = s.pc := rfl
@[simp] theorem setI_sp (s : State) (a : Word) : (s.setI a).sp = s.sp := rfl
@[simp] theorem setI_stack (s : State) (a : Word) : (s.setI a).stack = s.stack := rfl
@[simp] theorem setI_dt (s : State) (a : Word) : (s.setI a).dt = s.dt := rfl
@[simp] theorem setI_st (s : State) (a : Word) : (s.setI a).st = s.st := rfl
@[simp] theorem setI_fb (s : State) (a : Word) : (s.setI a).fb = s.fb := rfl
@[simp] theorem setI_dirty (s : State) (a : Word) : (s.setI a).dirty = s.dirty := rfl
@[simp] theorem setI_keys (s : State) (a : Word) : (s.setI a).keys = s.keys := rfl
@[simp] theorem setI_wait (s : State) (a : Word) : (s.setI a).wait = s.wait := rfl
@[simp] theorem setI_waitReg (s : State) (a : Word) : (s.setI a).waitReg = s.waitReg := rfl
@[simp] theorem setI_rngSeed (s : State) (a : Word) : (s.setI a).rngSeed = s.rngSeed := rfl
@[simp] theorem setI_rngDraws (s : State) (a : Word) : (s.setI a).rngDraws = s.rngDraws := rfl
@[simp] theorem setI_fault (s : State) (a : Word) : (s.setI a).fault = s.fault := rfl
@[simp] theorem setI_events (s : State) (a : Word) : (s.setI a).events = s.events := rfl
@[simp] theorem setI_reg (s : State) (a : Word) (r : Reg) : (s.setI a).reg r = s.reg r := rfl
@[simp] theorem setI_pixel (s : State) (a : Word) (l : Nat) : (s.setI a).pixel l = s.pixel l := rfl
@[simp] theorem setI_pcFetch (s : State) (a : Word) : (s.setI a).pcFetch = s.pcFetch := rfl

/-! ## `setPc` -/

@[simp] theorem setPc_config (s : State) (a : Word) : (s.setPc a).config = s.config := rfl
@[simp] theorem setPc_mem (s : State) (a : Word) : (s.setPc a).mem = s.mem := rfl
@[simp] theorem setPc_v (s : State) (a : Word) : (s.setPc a).v = s.v := rfl
@[simp] theorem setPc_i (s : State) (a : Word) : (s.setPc a).i = s.i := rfl
@[simp] theorem setPc_pc (s : State) (a : Word) : (s.setPc a).pc = a := rfl
@[simp] theorem setPc_sp (s : State) (a : Word) : (s.setPc a).sp = s.sp := rfl
@[simp] theorem setPc_stack (s : State) (a : Word) : (s.setPc a).stack = s.stack := rfl
@[simp] theorem setPc_dt (s : State) (a : Word) : (s.setPc a).dt = s.dt := rfl
@[simp] theorem setPc_st (s : State) (a : Word) : (s.setPc a).st = s.st := rfl
@[simp] theorem setPc_fb (s : State) (a : Word) : (s.setPc a).fb = s.fb := rfl
@[simp] theorem setPc_dirty (s : State) (a : Word) : (s.setPc a).dirty = s.dirty := rfl
@[simp] theorem setPc_keys (s : State) (a : Word) : (s.setPc a).keys = s.keys := rfl
@[simp] theorem setPc_wait (s : State) (a : Word) : (s.setPc a).wait = s.wait := rfl
@[simp] theorem setPc_waitReg (s : State) (a : Word) : (s.setPc a).waitReg = s.waitReg := rfl
@[simp] theorem setPc_rngSeed (s : State) (a : Word) : (s.setPc a).rngSeed = s.rngSeed := rfl
@[simp] theorem setPc_rngDraws (s : State) (a : Word) : (s.setPc a).rngDraws = s.rngDraws := rfl
@[simp] theorem setPc_fault (s : State) (a : Word) : (s.setPc a).fault = s.fault := rfl
@[simp] theorem setPc_events (s : State) (a : Word) : (s.setPc a).events = s.events := rfl
@[simp] theorem setPc_reg (s : State) (a : Word) (r : Reg) : (s.setPc a).reg r = s.reg r := rfl
@[simp] theorem setPc_pixel (s : State) (a : Word) (l : Nat) : (s.setPc a).pixel l = s.pixel l := rfl

/-! ## `setDt` -/

@[simp] theorem setDt_config (s : State) (b : Byte) : (s.setDt b).config = s.config := rfl
@[simp] theorem setDt_mem (s : State) (b : Byte) : (s.setDt b).mem = s.mem := rfl
@[simp] theorem setDt_v (s : State) (b : Byte) : (s.setDt b).v = s.v := rfl
@[simp] theorem setDt_i (s : State) (b : Byte) : (s.setDt b).i = s.i := rfl
@[simp] theorem setDt_pc (s : State) (b : Byte) : (s.setDt b).pc = s.pc := rfl
@[simp] theorem setDt_sp (s : State) (b : Byte) : (s.setDt b).sp = s.sp := rfl
@[simp] theorem setDt_stack (s : State) (b : Byte) : (s.setDt b).stack = s.stack := rfl
@[simp] theorem setDt_dt (s : State) (b : Byte) : (s.setDt b).dt = b := rfl
@[simp] theorem setDt_st (s : State) (b : Byte) : (s.setDt b).st = s.st := rfl
@[simp] theorem setDt_fb (s : State) (b : Byte) : (s.setDt b).fb = s.fb := rfl
@[simp] theorem setDt_dirty (s : State) (b : Byte) : (s.setDt b).dirty = s.dirty := rfl
@[simp] theorem setDt_keys (s : State) (b : Byte) : (s.setDt b).keys = s.keys := rfl
@[simp] theorem setDt_wait (s : State) (b : Byte) : (s.setDt b).wait = s.wait := rfl
@[simp] theorem setDt_waitReg (s : State) (b : Byte) : (s.setDt b).waitReg = s.waitReg := rfl
@[simp] theorem setDt_rngSeed (s : State) (b : Byte) : (s.setDt b).rngSeed = s.rngSeed := rfl
@[simp] theorem setDt_rngDraws (s : State) (b : Byte) : (s.setDt b).rngDraws = s.rngDraws := rfl
@[simp] theorem setDt_fault (s : State) (b : Byte) : (s.setDt b).fault = s.fault := rfl
@[simp] theorem setDt_events (s : State) (b : Byte) : (s.setDt b).events = s.events := rfl
@[simp] theorem setDt_reg (s : State) (b : Byte) (r : Reg) : (s.setDt b).reg r = s.reg r := rfl
@[simp] theorem setDt_pixel (s : State) (b : Byte) (l : Nat) : (s.setDt b).pixel l = s.pixel l := rfl
@[simp] theorem setDt_pcFetch (s : State) (b : Byte) : (s.setDt b).pcFetch = s.pcFetch := rfl

/-! ## `setSt` -/

@[simp] theorem setSt_config (s : State) (b : Byte) : (s.setSt b).config = s.config := rfl
@[simp] theorem setSt_mem (s : State) (b : Byte) : (s.setSt b).mem = s.mem := rfl
@[simp] theorem setSt_v (s : State) (b : Byte) : (s.setSt b).v = s.v := rfl
@[simp] theorem setSt_i (s : State) (b : Byte) : (s.setSt b).i = s.i := rfl
@[simp] theorem setSt_pc (s : State) (b : Byte) : (s.setSt b).pc = s.pc := rfl
@[simp] theorem setSt_sp (s : State) (b : Byte) : (s.setSt b).sp = s.sp := rfl
@[simp] theorem setSt_stack (s : State) (b : Byte) : (s.setSt b).stack = s.stack := rfl
@[simp] theorem setSt_dt (s : State) (b : Byte) : (s.setSt b).dt = s.dt := rfl
@[simp] theorem setSt_st (s : State) (b : Byte) : (s.setSt b).st = b := rfl
@[simp] theorem setSt_fb (s : State) (b : Byte) : (s.setSt b).fb = s.fb := rfl
@[simp] theorem setSt_dirty (s : State) (b : Byte) : (s.setSt b).dirty = s.dirty := rfl
@[simp] theorem setSt_keys (s : State) (b : Byte) : (s.setSt b).keys = s.keys := rfl
@[simp] theorem setSt_wait (s : State) (b : Byte) : (s.setSt b).wait = s.wait := rfl
@[simp] theorem setSt_waitReg (s : State) (b : Byte) : (s.setSt b).waitReg = s.waitReg := rfl
@[simp] theorem setSt_rngSeed (s : State) (b : Byte) : (s.setSt b).rngSeed = s.rngSeed := rfl
@[simp] theorem setSt_rngDraws (s : State) (b : Byte) : (s.setSt b).rngDraws = s.rngDraws := rfl
@[simp] theorem setSt_fault (s : State) (b : Byte) : (s.setSt b).fault = s.fault := rfl
@[simp] theorem setSt_events (s : State) (b : Byte) : (s.setSt b).events = s.events := rfl
@[simp] theorem setSt_reg (s : State) (b : Byte) (r : Reg) : (s.setSt b).reg r = s.reg r := rfl
@[simp] theorem setSt_pixel (s : State) (b : Byte) (l : Nat) : (s.setSt b).pixel l = s.pixel l := rfl
@[simp] theorem setSt_pcFetch (s : State) (b : Byte) : (s.setSt b).pcFetch = s.pcFetch := rfl

/-! ## `setMem` -/

@[simp] theorem setMem_config (s : State) (m : Memory) : (s.setMem m).config = s.config := rfl
@[simp] theorem setMem_mem (s : State) (m : Memory) : (s.setMem m).mem = m := rfl
@[simp] theorem setMem_v (s : State) (m : Memory) : (s.setMem m).v = s.v := rfl
@[simp] theorem setMem_i (s : State) (m : Memory) : (s.setMem m).i = s.i := rfl
@[simp] theorem setMem_pc (s : State) (m : Memory) : (s.setMem m).pc = s.pc := rfl
@[simp] theorem setMem_sp (s : State) (m : Memory) : (s.setMem m).sp = s.sp := rfl
@[simp] theorem setMem_stack (s : State) (m : Memory) : (s.setMem m).stack = s.stack := rfl
@[simp] theorem setMem_dt (s : State) (m : Memory) : (s.setMem m).dt = s.dt := rfl
@[simp] theorem setMem_st (s : State) (m : Memory) : (s.setMem m).st = s.st := rfl
@[simp] theorem setMem_fb (s : State) (m : Memory) : (s.setMem m).fb = s.fb := rfl
@[simp] theorem setMem_dirty (s : State) (m : Memory) : (s.setMem m).dirty = s.dirty := rfl
@[simp] theorem setMem_keys (s : State) (m : Memory) : (s.setMem m).keys = s.keys := rfl
@[simp] theorem setMem_wait (s : State) (m : Memory) : (s.setMem m).wait = s.wait := rfl
@[simp] theorem setMem_waitReg (s : State) (m : Memory) : (s.setMem m).waitReg = s.waitReg := rfl
@[simp] theorem setMem_rngSeed (s : State) (m : Memory) : (s.setMem m).rngSeed = s.rngSeed := rfl
@[simp] theorem setMem_rngDraws (s : State) (m : Memory) : (s.setMem m).rngDraws = s.rngDraws := rfl
@[simp] theorem setMem_fault (s : State) (m : Memory) : (s.setMem m).fault = s.fault := rfl
@[simp] theorem setMem_events (s : State) (m : Memory) : (s.setMem m).events = s.events := rfl
@[simp] theorem setMem_reg (s : State) (m : Memory) (r : Reg) : (s.setMem m).reg r = s.reg r := rfl
@[simp] theorem setMem_pixel (s : State) (m : Memory) (l : Nat) : (s.setMem m).pixel l = s.pixel l := rfl
@[simp] theorem setMem_pcFetch (s : State) (m : Memory) : (s.setMem m).pcFetch = s.pcFetch := rfl

/-! ## `setFb` -/

@[simp] theorem setFb_config (s : State) (f : BitVec 2048) : (s.setFb f).config = s.config := rfl
@[simp] theorem setFb_mem (s : State) (f : BitVec 2048) : (s.setFb f).mem = s.mem := rfl
@[simp] theorem setFb_v (s : State) (f : BitVec 2048) : (s.setFb f).v = s.v := rfl
@[simp] theorem setFb_i (s : State) (f : BitVec 2048) : (s.setFb f).i = s.i := rfl
@[simp] theorem setFb_pc (s : State) (f : BitVec 2048) : (s.setFb f).pc = s.pc := rfl
@[simp] theorem setFb_sp (s : State) (f : BitVec 2048) : (s.setFb f).sp = s.sp := rfl
@[simp] theorem setFb_stack (s : State) (f : BitVec 2048) : (s.setFb f).stack = s.stack := rfl
@[simp] theorem setFb_dt (s : State) (f : BitVec 2048) : (s.setFb f).dt = s.dt := rfl
@[simp] theorem setFb_st (s : State) (f : BitVec 2048) : (s.setFb f).st = s.st := rfl
@[simp] theorem setFb_fb (s : State) (f : BitVec 2048) : (s.setFb f).fb = f := rfl
@[simp] theorem setFb_dirty (s : State) (f : BitVec 2048) : (s.setFb f).dirty = s.dirty := rfl
@[simp] theorem setFb_keys (s : State) (f : BitVec 2048) : (s.setFb f).keys = s.keys := rfl
@[simp] theorem setFb_wait (s : State) (f : BitVec 2048) : (s.setFb f).wait = s.wait := rfl
@[simp] theorem setFb_waitReg (s : State) (f : BitVec 2048) : (s.setFb f).waitReg = s.waitReg := rfl
@[simp] theorem setFb_rngSeed (s : State) (f : BitVec 2048) : (s.setFb f).rngSeed = s.rngSeed := rfl
@[simp] theorem setFb_rngDraws (s : State) (f : BitVec 2048) : (s.setFb f).rngDraws = s.rngDraws := rfl
@[simp] theorem setFb_fault (s : State) (f : BitVec 2048) : (s.setFb f).fault = s.fault := rfl
@[simp] theorem setFb_events (s : State) (f : BitVec 2048) : (s.setFb f).events = s.events := rfl
@[simp] theorem setFb_reg (s : State) (f : BitVec 2048) (r : Reg) : (s.setFb f).reg r = s.reg r := rfl
@[simp] theorem setFb_pcFetch (s : State) (f : BitVec 2048) : (s.setFb f).pcFetch = s.pcFetch := rfl

/-! ## `setDirty` -/

@[simp] theorem setDirty_config (s : State) (b : Bool) : (s.setDirty b).config = s.config := rfl
@[simp] theorem setDirty_mem (s : State) (b : Bool) : (s.setDirty b).mem = s.mem := rfl
@[simp] theorem setDirty_v (s : State) (b : Bool) : (s.setDirty b).v = s.v := rfl
@[simp] theorem setDirty_i (s : State) (b : Bool) : (s.setDirty b).i = s.i := rfl
@[simp] theorem setDirty_pc (s : State) (b : Bool) : (s.setDirty b).pc = s.pc := rfl
@[simp] theorem setDirty_sp (s : State) (b : Bool) : (s.setDirty b).sp = s.sp := rfl
@[simp] theorem setDirty_stack (s : State) (b : Bool) : (s.setDirty b).stack = s.stack := rfl
@[simp] theorem setDirty_dt (s : State) (b : Bool) : (s.setDirty b).dt = s.dt := rfl
@[simp] theorem setDirty_st (s : State) (b : Bool) : (s.setDirty b).st = s.st := rfl
@[simp] theorem setDirty_fb (s : State) (b : Bool) : (s.setDirty b).fb = s.fb := rfl
@[simp] theorem setDirty_dirty (s : State) (b : Bool) : (s.setDirty b).dirty = b := rfl
@[simp] theorem setDirty_keys (s : State) (b : Bool) : (s.setDirty b).keys = s.keys := rfl
@[simp] theorem setDirty_wait (s : State) (b : Bool) : (s.setDirty b).wait = s.wait := rfl
@[simp] theorem setDirty_waitReg (s : State) (b : Bool) : (s.setDirty b).waitReg = s.waitReg := rfl
@[simp] theorem setDirty_rngSeed (s : State) (b : Bool) : (s.setDirty b).rngSeed = s.rngSeed := rfl
@[simp] theorem setDirty_rngDraws (s : State) (b : Bool) : (s.setDirty b).rngDraws = s.rngDraws := rfl
@[simp] theorem setDirty_fault (s : State) (b : Bool) : (s.setDirty b).fault = s.fault := rfl
@[simp] theorem setDirty_events (s : State) (b : Bool) : (s.setDirty b).events = s.events := rfl
@[simp] theorem setDirty_reg (s : State) (b : Bool) (r : Reg) : (s.setDirty b).reg r = s.reg r := rfl
@[simp] theorem setDirty_pixel (s : State) (b : Bool) (l : Nat) : (s.setDirty b).pixel l = s.pixel l := rfl
@[simp] theorem setDirty_pcFetch (s : State) (b : Bool) : (s.setDirty b).pcFetch = s.pcFetch := rfl

/-! ## `setKey` -/

@[simp] theorem setKey_config (s : State) (k : Fin 16) (b : Bool) : (s.setKey k b).config = s.config := rfl
@[simp] theorem setKey_mem (s : State) (k : Fin 16) (b : Bool) : (s.setKey k b).mem = s.mem := rfl
@[simp] theorem setKey_v (s : State) (k : Fin 16) (b : Bool) : (s.setKey k b).v = s.v := rfl
@[simp] theorem setKey_i (s : State) (k : Fin 16) (b : Bool) : (s.setKey k b).i = s.i := rfl
@[simp] theorem setKey_pc (s : State) (k : Fin 16) (b : Bool) : (s.setKey k b).pc = s.pc := rfl
@[simp] theorem setKey_sp (s : State) (k : Fin 16) (b : Bool) : (s.setKey k b).sp = s.sp := rfl
@[simp] theorem setKey_stack (s : State) (k : Fin 16) (b : Bool) : (s.setKey k b).stack = s.stack := rfl
@[simp] theorem setKey_dt (s : State) (k : Fin 16) (b : Bool) : (s.setKey k b).dt = s.dt := rfl
@[simp] theorem setKey_st (s : State) (k : Fin 16) (b : Bool) : (s.setKey k b).st = s.st := rfl
@[simp] theorem setKey_fb (s : State) (k : Fin 16) (b : Bool) : (s.setKey k b).fb = s.fb := rfl
@[simp] theorem setKey_dirty (s : State) (k : Fin 16) (b : Bool) : (s.setKey k b).dirty = s.dirty := rfl
@[simp] theorem setKey_keys (s : State) (k : Fin 16) (b : Bool) : (s.setKey k b).keys = s.keys.set k.val b k.isLt := rfl
@[simp] theorem setKey_wait (s : State) (k : Fin 16) (b : Bool) : (s.setKey k b).wait = s.wait := rfl
@[simp] theorem setKey_waitReg (s : State) (k : Fin 16) (b : Bool) : (s.setKey k b).waitReg = s.waitReg := rfl
@[simp] theorem setKey_rngSeed (s : State) (k : Fin 16) (b : Bool) : (s.setKey k b).rngSeed = s.rngSeed := rfl
@[simp] theorem setKey_rngDraws (s : State) (k : Fin 16) (b : Bool) : (s.setKey k b).rngDraws = s.rngDraws := rfl
@[simp] theorem setKey_fault (s : State) (k : Fin 16) (b : Bool) : (s.setKey k b).fault = s.fault := rfl
@[simp] theorem setKey_events (s : State) (k : Fin 16) (b : Bool) : (s.setKey k b).events = s.events := rfl
@[simp] theorem setKey_reg (s : State) (k : Fin 16) (b : Bool) (r : Reg) : (s.setKey k b).reg r = s.reg r := rfl
@[simp] theorem setKey_pixel (s : State) (k : Fin 16) (b : Bool) (l : Nat) : (s.setKey k b).pixel l = s.pixel l := rfl
@[simp] theorem setKey_pcFetch (s : State) (k : Fin 16) (b : Bool) : (s.setKey k b).pcFetch = s.pcFetch := rfl

/-! ## `startWait` -/

@[simp] theorem startWait_config (s : State) (x : Reg) : (s.startWait x).config = s.config := rfl
@[simp] theorem startWait_mem (s : State) (x : Reg) : (s.startWait x).mem = s.mem := rfl
@[simp] theorem startWait_v (s : State) (x : Reg) : (s.startWait x).v = s.v := rfl
@[simp] theorem startWait_i (s : State) (x : Reg) : (s.startWait x).i = s.i := rfl
@[simp] theorem startWait_pc (s : State) (x : Reg) : (s.startWait x).pc = s.pc := rfl
@[simp] theorem startWait_sp (s : State) (x : Reg) : (s.startWait x).sp = s.sp := rfl
@[simp] theorem startWait_stack (s : State) (x : Reg) : (s.startWait x).stack = s.stack := rfl
@[simp] theorem startWait_dt (s : State) (x : Reg) : (s.startWait x).dt = s.dt := rfl
@[simp] theorem startWait_st (s : State) (x : Reg) : (s.startWait x).st = s.st := rfl
@[simp] theorem startWait_fb (s : State) (x : Reg) : (s.startWait x).fb = s.fb := rfl
@[simp] theorem startWait_dirty (s : State) (x : Reg) : (s.startWait x).dirty = s.dirty := rfl
@[simp] theorem startWait_keys (s : State) (x : Reg) : (s.startWait x).keys = s.keys := rfl
@[simp] theorem startWait_wait (s : State) (x : Reg) : (s.startWait x).wait = true := rfl
@[simp] theorem startWait_waitReg (s : State) (x : Reg) : (s.startWait x).waitReg = x := rfl
@[simp] theorem startWait_rngSeed (s : State) (x : Reg) : (s.startWait x).rngSeed = s.rngSeed := rfl
@[simp] theorem startWait_rngDraws (s : State) (x : Reg) : (s.startWait x).rngDraws = s.rngDraws := rfl
@[simp] theorem startWait_fault (s : State) (x : Reg) : (s.startWait x).fault = s.fault := rfl
@[simp] theorem startWait_events (s : State) (x : Reg) : (s.startWait x).events = s.events := rfl
@[simp] theorem startWait_reg (s : State) (x : Reg) (r : Reg) : (s.startWait x).reg r = s.reg r := rfl
@[simp] theorem startWait_pixel (s : State) (x : Reg) (l : Nat) : (s.startWait x).pixel l = s.pixel l := rfl
@[simp] theorem startWait_pcFetch (s : State) (x : Reg) : (s.startWait x).pcFetch = s.pcFetch := rfl

/-! ## `endWait` -/

@[simp] theorem endWait_config (s : State) : (s.endWait).config = s.config := rfl
@[simp] theorem endWait_mem (s : State) : (s.endWait).mem = s.mem := rfl
@[simp] theorem endWait_v (s : State) : (s.endWait).v = s.v := rfl
@[simp] theorem endWait_i (s : State) : (s.endWait).i = s.i := rfl
@[simp] theorem endWait_pc (s : State) : (s.endWait).pc = s.pc := rfl
@[simp] theorem endWait_sp (s : State) : (s.endWait).sp = s.sp := rfl
@[simp] theorem endWait_stack (s : State) : (s.endWait).stack = s.stack := rfl
@[simp] theorem endWait_dt (s : State) : (s.endWait).dt = s.dt := rfl
@[simp] theorem endWait_st (s : State) : (s.endWait).st = s.st := rfl
@[simp] theorem endWait_fb (s : State) : (s.endWait).fb = s.fb := rfl
@[simp] theorem endWait_dirty (s : State) : (s.endWait).dirty = s.dirty := rfl
@[simp] theorem endWait_keys (s : State) : (s.endWait).keys = s.keys := rfl
@[simp] theorem endWait_wait (s : State) : (s.endWait).wait = false := rfl
@[simp] theorem endWait_waitReg (s : State) : (s.endWait).waitReg = s.waitReg := rfl
@[simp] theorem endWait_rngSeed (s : State) : (s.endWait).rngSeed = s.rngSeed := rfl
@[simp] theorem endWait_rngDraws (s : State) : (s.endWait).rngDraws = s.rngDraws := rfl
@[simp] theorem endWait_fault (s : State) : (s.endWait).fault = s.fault := rfl
@[simp] theorem endWait_events (s : State) : (s.endWait).events = s.events := rfl
@[simp] theorem endWait_reg (s : State) (r : Reg) : (s.endWait).reg r = s.reg r := rfl
@[simp] theorem endWait_pixel (s : State) (l : Nat) : (s.endWait).pixel l = s.pixel l := rfl
@[simp] theorem endWait_pcFetch (s : State) : (s.endWait).pcFetch = s.pcFetch := rfl

/-! ## `halt` -/

@[simp] theorem halt_config (s : State) (f : Fault) : (s.halt f).config = s.config := rfl
@[simp] theorem halt_mem (s : State) (f : Fault) : (s.halt f).mem = s.mem := rfl
@[simp] theorem halt_v (s : State) (f : Fault) : (s.halt f).v = s.v := rfl
@[simp] theorem halt_i (s : State) (f : Fault) : (s.halt f).i = s.i := rfl
@[simp] theorem halt_pc (s : State) (f : Fault) : (s.halt f).pc = s.pc := rfl
@[simp] theorem halt_sp (s : State) (f : Fault) : (s.halt f).sp = s.sp := rfl
@[simp] theorem halt_stack (s : State) (f : Fault) : (s.halt f).stack = s.stack := rfl
@[simp] theorem halt_dt (s : State) (f : Fault) : (s.halt f).dt = s.dt := rfl
@[simp] theorem halt_st (s : State) (f : Fault) : (s.halt f).st = s.st := rfl
@[simp] theorem halt_fb (s : State) (f : Fault) : (s.halt f).fb = s.fb := rfl
@[simp] theorem halt_dirty (s : State) (f : Fault) : (s.halt f).dirty = s.dirty := rfl
@[simp] theorem halt_keys (s : State) (f : Fault) : (s.halt f).keys = s.keys := rfl
@[simp] theorem halt_wait (s : State) (f : Fault) : (s.halt f).wait = s.wait := rfl
@[simp] theorem halt_waitReg (s : State) (f : Fault) : (s.halt f).waitReg = s.waitReg := rfl
@[simp] theorem halt_rngSeed (s : State) (f : Fault) : (s.halt f).rngSeed = s.rngSeed := rfl
@[simp] theorem halt_rngDraws (s : State) (f : Fault) : (s.halt f).rngDraws = s.rngDraws := rfl
@[simp] theorem halt_fault (s : State) (f : Fault) : (s.halt f).fault = some f := rfl
@[simp] theorem halt_events (s : State) (f : Fault) : (s.halt f).events = s.events := rfl
@[simp] theorem halt_reg (s : State) (f : Fault) (r : Reg) : (s.halt f).reg r = s.reg r := rfl
@[simp] theorem halt_pixel (s : State) (f : Fault) (l : Nat) : (s.halt f).pixel l = s.pixel l := rfl
@[simp] theorem halt_pcFetch (s : State) (f : Fault) : (s.halt f).pcFetch = s.pcFetch := rfl

/-! ## `report` -/

@[simp] theorem report_config (s : State) (e : Report) : (s.report e).config = s.config := rfl
@[simp] theorem report_mem (s : State) (e : Report) : (s.report e).mem = s.mem := rfl
@[simp] theorem report_v (s : State) (e : Report) : (s.report e).v = s.v := rfl
@[simp] theorem report_i (s : State) (e : Report) : (s.report e).i = s.i := rfl
@[simp] theorem report_pc (s : State) (e : Report) : (s.report e).pc = s.pc := rfl
@[simp] theorem report_sp (s : State) (e : Report) : (s.report e).sp = s.sp := rfl
@[simp] theorem report_stack (s : State) (e : Report) : (s.report e).stack = s.stack := rfl
@[simp] theorem report_dt (s : State) (e : Report) : (s.report e).dt = s.dt := rfl
@[simp] theorem report_st (s : State) (e : Report) : (s.report e).st = s.st := rfl
@[simp] theorem report_fb (s : State) (e : Report) : (s.report e).fb = s.fb := rfl
@[simp] theorem report_dirty (s : State) (e : Report) : (s.report e).dirty = s.dirty := rfl
@[simp] theorem report_keys (s : State) (e : Report) : (s.report e).keys = s.keys := rfl
@[simp] theorem report_wait (s : State) (e : Report) : (s.report e).wait = s.wait := rfl
@[simp] theorem report_waitReg (s : State) (e : Report) : (s.report e).waitReg = s.waitReg := rfl
@[simp] theorem report_rngSeed (s : State) (e : Report) : (s.report e).rngSeed = s.rngSeed := rfl
@[simp] theorem report_rngDraws (s : State) (e : Report) : (s.report e).rngDraws = s.rngDraws := rfl
@[simp] theorem report_fault (s : State) (e : Report) : (s.report e).fault = s.fault := rfl
@[simp] theorem report_events (s : State) (e : Report) : (s.report e).events = s.events ++ [e] := rfl
@[simp] theorem report_reg (s : State) (e : Report) (r : Reg) : (s.report e).reg r = s.reg r := rfl
@[simp] theorem report_pixel (s : State) (e : Report) (l : Nat) : (s.report e).pixel l = s.pixel l := rfl
@[simp] theorem report_pcFetch (s : State) (e : Report) : (s.report e).pcFetch = s.pcFetch := rfl

/-! ## `advancePc` -/

@[simp] theorem advancePc_config (s : State) : (s.advancePc).config = s.config := rfl
@[simp] theorem advancePc_mem (s : State) : (s.advancePc).mem = s.mem := rfl
@[simp] theorem advancePc_v (s : State) : (s.advancePc).v = s.v := rfl
@[simp] theorem advancePc_i (s : State) : (s.advancePc).i = s.i := rfl
@[simp] theorem advancePc_pc (s : State) : (s.advancePc).pc = s.pc + 2 := rfl
@[simp] theorem advancePc_sp (s : State) : (s.advancePc).sp = s.sp := rfl
@[simp] theorem advancePc_stack (s : State) : (s.advancePc).stack = s.stack := rfl
@[simp] theorem advancePc_dt (s : State) : (s.advancePc).dt = s.dt := rfl
@[simp] theorem advancePc_st (s : State) : (s.advancePc).st = s.st := rfl
@[simp] theorem advancePc_fb (s : State) : (s.advancePc).fb = s.fb := rfl
@[simp] theorem advancePc_dirty (s : State) : (s.advancePc).dirty = s.dirty := rfl
@[simp] theorem advancePc_keys (s : State) : (s.advancePc).keys = s.keys := rfl
@[simp] theorem advancePc_wait (s : State) : (s.advancePc).wait = s.wait := rfl
@[simp] theorem advancePc_waitReg (s : State) : (s.advancePc).waitReg = s.waitReg := rfl
@[simp] theorem advancePc_rngSeed (s : State) : (s.advancePc).rngSeed = s.rngSeed := rfl
@[simp] theorem advancePc_rngDraws (s : State) : (s.advancePc).rngDraws = s.rngDraws := rfl
@[simp] theorem advancePc_fault (s : State) : (s.advancePc).fault = s.fault := rfl
@[simp] theorem advancePc_events (s : State) : (s.advancePc).events = s.events := rfl
@[simp] theorem advancePc_reg (s : State) (r : Reg) : (s.advancePc).reg r = s.reg r := rfl
@[simp] theorem advancePc_pixel (s : State) (l : Nat) : (s.advancePc).pixel l = s.pixel l := rfl

/-! ## Reading a register, a pixel or pc_fetch after an update -/

theorem setV_reg (s : State) (x : Reg) (b : Byte) (r : Reg) :
    (s.setV x b).reg r = if x = r then b else s.reg r := by
  simp only [State.reg, setV_v, Vector.getElem_set, Fin.ext_iff]

@[simp] theorem setV_reg_same (s : State) (x : Reg) (b : Byte) : (s.setV x b).reg x = b := by
  simp [setV_reg]

@[simp] theorem setV_reg_other (s : State) (x : Reg) (b : Byte) (r : Reg) (h : x ≠ r) :
    (s.setV x b).reg r = s.reg r := by
  simp [setV_reg, h]

theorem setVF_eq (s : State) (b : Byte) : s.setVF b = s.setV flagReg b := rfl

theorem setVF_reg (s : State) (b : Byte) (r : Reg) :
    (s.setVF b).reg r = if flagReg = r then b else s.reg r := setV_reg s flagReg b r

@[simp] theorem setFb_pixel (s : State) (f : BitVec 2048) (l : Nat) : (s.setFb f).pixel l = f.getLsbD l := rfl

@[simp] theorem advancePc_pcFetch (s : State) : s.advancePc.pcFetch = s.pc := by
  simp [State.pcFetch]

/-- Two register files that agree at every register are equal. -/
theorem v_ext {u w : Vector Byte 16} (h : ∀ r : Reg, u[r.val] = w[r.val]) : u = w :=
  Vector.ext fun k hk => h ⟨k, hk⟩

/-- A skip changes nothing but PC (R141). -/
theorem skipIf_eq (s : State) (c : Bool) :
    s.skipIf c = s.setPc (if c then s.pc + 2 else s.pc) := by
  cases c <;> rfl

end Sys2Proof.Machine
end

