-- ==== Sys2Proof/Laws/Memory.lean ====
section
/-! SUPPORT. The laws of memory: a read after a write, the canonical form kept by every operation, and memory built from
given contents (spec/20_memory.md R58, R62). -/

namespace Sys2Proof.Machine

@[simp] theorem Memory.read_nil (a : Nat) : Memory.read [] a = initialByte a := rfl

theorem Memory.read_cons (b : Nat) (u : Byte) (m : Memory) (a : Nat) :
    Memory.read ((b, u) :: m) a = if a = b then u else Memory.read m a := rfl

/-- A canonical memory lists nothing below its bound. -/
theorem Memory.read_below {m : Memory} {lo a : Nat} (h : Memory.wfAbove lo m = true) (ha : a < lo) :
    Memory.read m a = initialByte a := by
  induction m generalizing lo with
  | nil => rfl
  | cons c m ih =>
    obtain ⟨b, u⟩ := c
    simp only [Memory.wfAbove, Bool.and_eq_true, decide_eq_true_eq] at h
    rw [Memory.read_cons, if_neg (by omega)]
    exact ih h.2 (by omega)

/-- A bound may be lowered. -/
theorem Memory.wfAbove_mono {m : Memory} {lo lo' : Nat} (h : Memory.wfAbove lo m = true) (hle : lo' ≤ lo) :
    Memory.wfAbove lo' m = true := by
  cases m with
  | nil => rfl
  | cons c m =>
    obtain ⟨b, u⟩ := c
    simp only [Memory.wfAbove, Bool.and_eq_true, decide_eq_true_eq] at h ⊢
    exact ⟨⟨⟨by omega, h.1.1.2⟩, h.1.2⟩, h.2⟩

/-- A write leaves every other cell alone, in any memory. -/
theorem Memory.read_write_other (m : Memory) {a c : Nat} (v : Byte) (h : c ≠ a) :
    Memory.read (Memory.write m a v) c = Memory.read m c := by
  induction m with
  | nil =>
    by_cases hv : v = initialByte a <;> simp [Memory.write, hv, Memory.read_cons, h]
  | cons d m ih =>
    obtain ⟨b, u⟩ := d
    rcases Nat.lt_trichotomy a b with hab | hab | hab
    · by_cases hv : v = initialByte a <;> simp [Memory.write, hab, hv, Memory.read_cons, h]
    · subst hab
      by_cases hv : v = initialByte a <;> simp [Memory.write, hv, Memory.read_cons, h]
    · simp [Memory.write, Nat.lt_asymm hab, Nat.ne_of_gt hab, Memory.read_cons, ih]

/-- A read after a write to the same cell gives the value written, in a canonical memory. -/
theorem Memory.read_write_same_above {m : Memory} {lo : Nat} (h : Memory.wfAbove lo m = true) (a : Nat) (v : Byte) :
    Memory.read (Memory.write m a v) a = v := by
  induction m generalizing lo with
  | nil => by_cases hv : v = initialByte a <;> simp [Memory.write, hv, Memory.read_cons]
  | cons d m ih =>
    obtain ⟨b, u⟩ := d
    have hm := h
    simp only [Memory.wfAbove, Bool.and_eq_true, decide_eq_true_eq] at hm
    rcases Nat.lt_trichotomy a b with hab | hab | hab
    · by_cases hv : v = initialByte a
      · simp only [Memory.write, hab, hv, if_true]
        rw [Memory.read_cons, if_neg (by omega)]
        exact Memory.read_below hm.2 (by omega)
      · simp [Memory.write, hab, hv, Memory.read_cons]
    · subst hab
      by_cases hv : v = initialByte a
      · simp only [Memory.write, Nat.lt_irrefl, if_false, if_true, hv]
        exact Memory.read_below hm.2 (by omega)
      · simp [Memory.write, hv, Memory.read_cons]
    · simp only [Memory.write, Nat.lt_asymm hab, Nat.ne_of_gt hab, if_false, Memory.read_cons]
      exact ih hm.2

@[simp] theorem Memory.read_write_same {m : Memory} (h : m.wf = true) (a : Nat) (v : Byte) :
    Memory.read (Memory.write m a v) a = v := Memory.read_write_same_above h a v

/-- A read after a write, in a canonical memory. -/
theorem Memory.read_write {m : Memory} (h : m.wf = true) (a c : Nat) (v : Byte) :
    Memory.read (Memory.write m a v) c = if c = a then v else Memory.read m c := by
  split
  · next hc => subst hc; exact Memory.read_write_same h c v
  · next hc => exact Memory.read_write_other m v hc

theorem Memory.write_wfAbove {m : Memory} {lo a : Nat} (h : Memory.wfAbove lo m = true) (v : Byte) (hlo : lo ≤ a)
    (ha : a < 4096) : Memory.wfAbove lo (Memory.write m a v) = true := by
  induction m generalizing lo with
  | nil => by_cases hv : v = initialByte a <;> simp [Memory.write, Memory.wfAbove, hv, hlo, ha]
  | cons d m ih =>
    obtain ⟨b, u⟩ := d
    have hm := h
    simp only [Memory.wfAbove, Bool.and_eq_true, decide_eq_true_eq] at hm
    rcases Nat.lt_trichotomy a b with hab | hab | hab
    · by_cases hv : v = initialByte a
      · simpa [Memory.write, hab, hv] using h
      · simp [Memory.write, hab, hv, Memory.wfAbove, hm, hlo, ha, Nat.succ_le_of_lt hab]
    · subst hab
      by_cases hv : v = initialByte a
      · simp only [Memory.write, Nat.lt_irrefl, if_false, if_true, hv]
        exact Memory.wfAbove_mono hm.2 (by omega)
      · simp [Memory.write, hv, Memory.wfAbove, hm]
    · simp only [Memory.write, Nat.lt_asymm hab, Nat.ne_of_gt hab, if_false, Memory.wfAbove, Bool.and_eq_true,
        decide_eq_true_eq]
      exact ⟨hm.1, ih hm.2 (by omega)⟩

/-- A write inside memory keeps the canonical form. -/
theorem Memory.write_wf {m : Memory} (h : m.wf = true) {a : Nat} (v : Byte) (ha : a < 4096) :
    (Memory.write m a v).wf = true := Memory.write_wfAbove h v (Nat.zero_le a) ha

/-- Reset memory, which lists nothing, is canonical. -/
@[simp] theorem Memory.nil_wf : Memory.wf [] = true := rfl

/-! ## Memory built from given contents -/

/-- The cells of the addresses `a`, `a + 1`, …, `a + n - 1` that differ from the reset contents. -/
theorem Memory.ofRange_wfAbove (f : Nat → Byte) (a n : Nat) (h : a + n ≤ 4096) :
    Memory.wfAbove a ((List.range' a n).filterMap fun c => if f c = initialByte c then none else some (c, f c)) = true := by
  induction n generalizing a with
  | zero => rfl
  | succ n ih =>
    simp only [List.range'_succ, List.filterMap_cons]
    have step := ih (a + 1) (by omega)
    by_cases hf : f a = initialByte a
    · simp only [hf, if_true]
      exact Memory.wfAbove_mono step (by omega)
    · simp only [hf, if_false, Memory.wfAbove, Bool.and_eq_true, decide_eq_true_eq]
      exact ⟨⟨⟨Nat.le_refl a, by show a < 4096; omega⟩, hf⟩, step⟩

theorem Memory.ofRange_read (f : Nat → Byte) (a n c : Nat) :
    Memory.read ((List.range' a n).filterMap fun d => if f d = initialByte d then none else some (d, f d)) c =
      if a ≤ c ∧ c < a + n then f c else initialByte c := by
  induction n generalizing a with
  | zero => simp
  | succ n ih =>
    simp only [List.range'_succ, List.filterMap_cons]
    by_cases hf : f a = initialByte a
    · simp only [hf, if_true, ih]
      by_cases hc : c = a
      · subst hc; simp [hf]
      · have : (a + 1 ≤ c ∧ c < a + 1 + n) ↔ (a ≤ c ∧ c < a + (n + 1)) := by omega
        simp only [this]
    · simp only [hf, if_false, Memory.read_cons, ih]
      by_cases hc : c = a
      · subst hc; simp
      · have : (a + 1 ≤ c ∧ c < a + 1 + n) ↔ (a ≤ c ∧ c < a + (n + 1)) := by omega
        simp only [this, hc, if_false]

theorem Memory.ofContents_wf (f : Nat → Byte) : (Memory.ofContents f).wf = true := by
  have h := Memory.ofRange_wfAbove f 0 4096 (by omega)
  rwa [← List.range_eq_range'] at h

theorem Memory.ofContents_read (f : Nat → Byte) (c : Nat) :
    Memory.read (Memory.ofContents f) c = if c < 4096 then f c else initialByte c := by
  have h := Memory.ofRange_read f 0 4096 c
  rw [← List.range_eq_range'] at h
  simpa [Memory.ofContents] using h

/-- The reset contents themselves need no entry. -/
theorem Memory.ofContents_initial : Memory.ofContents initialByte = [] := by
  simp [Memory.ofContents]

end Sys2Proof.Machine
end

