-- ==== Sys2Proof/Laws/Ops.lean ====
section
/-! SUPPORT. One spec lemma for each shared operation: everything it can do, said once (memory accesses, byte runs, the
fetch, the call stack, the random draw, the flag sequence, the key operand). -/

namespace Sys2Proof.Machine

/-! ## Single accesses (R12, R52) -/

theorem memRead_ok (s : State) {a : Nat} (kind : AccessKind) (p : Word) (h : a < 4096) :
    memRead s a kind p = .ok (s.mem.read a) := if_pos h

theorem memRead_oob (s : State) {a : Nat} (kind : AccessKind) (p : Word) (h : 4096 ≤ a) :
    memRead s a kind p = .error (.memOob a kind (some p)) := if_neg (Nat.not_lt.mpr h)

theorem memWrite_ok (s : State) {a : Nat} (b : Byte) (p : Option Word) (h : a < 4096) :
    memWrite s a b p = .ok (s.setMem (s.mem.write a b)) := if_pos h

theorem memWrite_oob (s : State) {a : Nat} (b : Byte) (p : Option Word) (h : 4096 ≤ a) :
    memWrite s a b p = .error (.memOob a .write p) := if_neg (Nat.not_lt.mpr h)

/-! ## Runs of reads -/

theorem readBytes_ok (s : State) (n a : Nat) (h : n = 0 ∨ a + n ≤ 4096) :
    readBytes s a n = .ok ((List.range' a n).map s.mem.read) := by
  induction n generalizing a with
  | zero => rfl
  | succ n ih =>
    simp only [readBytes, memRead_ok s .read s.pcFetch (show a < 4096 by omega), ih (a + 1) (by omega),
      List.range'_succ, List.map_cons]

theorem readBytes_oob (s : State) (n a : Nat) (hn : 0 < n) (h : 4096 < a + n) :
    readBytes s a n = .error (.memOob (max a 4096) .read (some s.pcFetch)) := by
  induction n generalizing a with
  | zero => omega
  | succ n ih =>
    by_cases ha : a < 4096
    · simp only [readBytes, memRead_ok s .read s.pcFetch ha, ih (a + 1) (by omega) (by omega)]
      congr 2; omega
    · simp only [readBytes, memRead_oob s .read s.pcFetch (Nat.not_lt.mp ha)]
      congr 2; omega

/-- A run of reads either answers the bytes or faults at its first address outside memory. -/
theorem readBytes_cases (s : State) (a n : Nat) :
    (readBytes s a n = .ok ((List.range' a n).map s.mem.read)) ∨
      (4096 < a + n ∧ readBytes s a n = .error (.memOob (max a 4096) .read (some s.pcFetch))) := by
  by_cases h : n = 0 ∨ a + n ≤ 4096
  · exact .inl (readBytes_ok s n a h)
  · exact .inr ⟨by omega, readBytes_oob s n a (by omega) (by omega)⟩

/-! ## Runs of writes -/

/-- The memory after the bytes are written one by one. -/
def Memory.writeAll : List Byte → Nat → Memory → Memory
  | [], _, m => m
  | b :: bs, a, m => Memory.writeAll bs (a + 1) (m.write a b)

theorem storeBytes_ok (p : Option Word) (bs : List Byte) (a : Nat) (s : State)
    (h : bs = [] ∨ a + bs.length ≤ 4096) :
    storeBytes p bs a s = .ok (s.setMem (Memory.writeAll bs a s.mem)) := by
  induction bs generalizing a s with
  | nil => rfl
  | cons b bs ih =>
    simp only [List.length_cons, reduceCtorEq, false_or] at h
    simp only [storeBytes, memWrite_ok s b p (show a < 4096 by omega),
      ih (a + 1) (s.setMem (s.mem.write a b)) (by
        by_cases hb : bs = []
        · exact .inl hb
        · exact .inr (by omega))]
    rfl

theorem storeBytes_oob (p : Option Word) (bs : List Byte) (a : Nat) (s : State) (hn : bs ≠ [])
    (h : 4096 < a + bs.length) :
    storeBytes p bs a s = .error (.memOob (max a 4096) .write p) := by
  induction bs generalizing a s with
  | nil => exact absurd rfl hn
  | cons b bs ih =>
    simp only [List.length_cons] at h
    by_cases ha : a < 4096
    · have hbs : bs ≠ [] := by rintro rfl; simp at h; omega
      simp only [storeBytes, memWrite_ok s b p ha, ih (a + 1) _ hbs (by omega)]
      congr 2; omega
    · simp only [storeBytes, memWrite_oob s b p (Nat.not_lt.mp ha)]
      congr 2; omega

/-- A run of writes either changes memory alone or faults at its first address outside memory. -/
theorem storeBytes_cases (p : Option Word) (bs : List Byte) (a : Nat) (s : State) :
    ((bs = [] ∨ a + bs.length ≤ 4096) ∧ storeBytes p bs a s = .ok (s.setMem (Memory.writeAll bs a s.mem))) ∨
      (4096 < a + bs.length ∧ storeBytes p bs a s = .error (.memOob (max a 4096) .write p)) := by
  by_cases h : bs = [] ∨ a + bs.length ≤ 4096
  · exact .inl ⟨h, storeBytes_ok p bs a s h⟩
  · obtain ⟨h1, h2⟩ := not_or.mp h
    exact .inr ⟨by omega, storeBytes_oob p bs a s h1 (by omega)⟩

theorem Memory.writeAll_wf (bs : List Byte) (a : Nat) {m : Memory} (hm : m.wf = true)
    (h : bs = [] ∨ a + bs.length ≤ 4096) : (Memory.writeAll bs a m).wf = true := by
  induction bs generalizing a m with
  | nil => exact hm
  | cons b bs ih =>
    simp only [List.length_cons, reduceCtorEq, false_or] at h
    exact ih (a + 1) (Memory.write_wf hm b (by omega)) (.inr (by omega))

/-- A cell outside the bytes stored reads as before, in any memory. -/
theorem Memory.read_writeAll_other (bs : List Byte) (a c : Nat) (m : Memory) (h : c < a ∨ a + bs.length ≤ c) :
    (Memory.writeAll bs a m).read c = m.read c := by
  induction bs generalizing a m with
  | nil => rfl
  | cons b bs ih =>
    simp only [List.length_cons] at h
    rw [Memory.writeAll, ih (a + 1) _ (by omega), Memory.read_write_other m b (by omega)]

/-- A stored cell reads as the byte stored to it, in a canonical memory. -/
theorem Memory.read_writeAll_inside (bs : List Byte) (a : Nat) {m : Memory} (hm : m.wf = true)
    (h : a + bs.length ≤ 4096) (k : Nat) (hk : k < bs.length) :
    (Memory.writeAll bs a m).read (a + k) = bs[k] := by
  induction bs generalizing a m k with
  | nil => simp at hk
  | cons b bs ih =>
    simp only [List.length_cons] at h hk
    cases k with
    | zero =>
      rw [Memory.writeAll, Memory.read_writeAll_other bs (a + 1) _ _ (by omega)]
      exact Memory.read_write_same hm a b
    | succ k =>
      have hw := Memory.write_wf hm b (show a < 4096 by omega)
      have := ih (a + 1) hw (by omega) k (by omega)
      rwa [show a + 1 + k = a + (k + 1) by omega] at this

/-! ## The fetch (R54, R56) -/

theorem fetchWord_ok (s : State) (h : s.pc.toNat + 1 < 4096) :
    fetchWord s = .ok (wordOfBytes (s.mem.read s.pc.toNat) (s.mem.read (s.pc.toNat + 1))) := by
  simp only [fetchWord, memRead_ok s .fetch s.pc (show s.pc.toNat < 4096 by omega), memRead_ok s .fetch s.pc h]

theorem fetchWord_oob (s : State) (h : 4096 ≤ s.pc.toNat + 1) :
    fetchWord s = .error (.memOob (max s.pc.toNat 4096) .fetch (some s.pc)) := by
  by_cases hp : s.pc.toNat < 4096
  · simp only [fetchWord, memRead_ok s .fetch s.pc hp, memRead_oob s .fetch s.pc h]
    congr 2; omega
  · simp only [fetchWord, memRead_oob s .fetch s.pc (Nat.not_lt.mp hp)]
    congr 2; omega

/-- A fetch that answers a word came from inside memory. -/
theorem fetchWord_bound {s : State} {w : Word} (h : fetchWord s = .ok w) : s.pc.toNat + 1 < 4096 := by
  by_contra hc
  rw [fetchWord_oob s (by omega)] at h
  cases h

/-! ## The call stack (R28) -/

theorem push_ok (s : State) (a : Word) (h : s.sp.val < 16) :
    push s a = .ok { s with stack := s.stack.set s.sp.val a h, sp := ⟨s.sp.val + 1, Nat.succ_lt_succ h⟩ } := dif_pos h

theorem push_full (s : State) (a : Word) (h : ¬ s.sp.val < 16) : push s a = .error (.stackOverflow s.pcFetch) := dif_neg h

theorem pop_ok (s : State) (h : 0 < s.sp.val) :
    pop s = .ok (s.stack[s.sp.val - 1]'(by have := s.sp.isLt; omega),
      { s with sp := ⟨s.sp.val - 1, by have := s.sp.isLt; omega⟩ }) := dif_pos h

theorem pop_empty (s : State) (h : ¬ 0 < s.sp.val) : pop s = .error (.stackUnderflow s.pcFetch) := dif_neg h

/-! ## Outcomes -/

@[simp] theorem complete_ok (s : State) : complete (.ok s) = .next s := rfl

@[simp] theorem complete_error (f : Fault) : complete (.error f) = .fault f := rfl

theorem complete_ne_refused (r : Except Fault State) (e : Refusal) : complete r ≠ .refused e := by
  cases r <;> nofun

/-! ## Operands -/

theorem keyOperand_ok (s : State) (x : Reg) (h : (s.reg x).toNat < 16) :
    keyOperand s x = .ok ⟨(s.reg x).toNat, h⟩ := dif_pos h

theorem keyOperand_range (s : State) (x : Reg) (h : ¬ (s.reg x).toNat < 16) :
    keyOperand s x = .error (.keyRange (s.reg x) s.pcFetch) := dif_neg h

theorem regsUpTo_length (s : State) (x : Reg) : (regsUpTo s x).length = x.val + 1 := by
  have := x.isLt
  simp only [regsUpTo, List.length_take, Vector.length_toList]
  omega

theorem regsUpTo_get (s : State) (x : Reg) (k : Nat) (h : k < (regsUpTo s x).length) :
    (regsUpTo s x)[k] = s.reg ⟨k, by have := regsUpTo_length s x; have := x.isLt; omega⟩ := by
  simp [regsUpTo, State.reg]

theorem loadRegs_reg (s : State) (bytes : List Byte) (r : Reg) :
    (loadRegs s bytes).reg r = bytes.getD r.val (s.reg r) := by
  simp [loadRegs, State.reg]

theorem zextAddr_toNat (nnn : BitVec 12) : (zextAddr nnn).toNat = nnn.toNat := by
  have := nnn.isLt
  simp only [zextAddr, BitVec.toNat_setWidth]
  omega

/-- The target of Bnnn does not wrap: it is at most 0xFFF + 0xFF (R139). -/
theorem indexedTarget_toNat (s : State) (nnn : BitVec 12) :
    (indexedTarget s nnn).toNat = nnn.toNat + (s.reg 0).toNat := by
  have := nnn.isLt
  have := (s.reg 0).isLt
  simp only [indexedTarget, zextAddr, zextByte, BitVec.toNat_add, BitVec.toNat_setWidth]
  omega

/-- The advance after a fetch that succeeded does not wrap (R111). -/
theorem advancePc_toNat (s : State) (h : s.pc.toNat + 1 < 4096) : s.advancePc.pc.toNat = s.pc.toNat + 2 := by
  simp [BitVec.toNat_add]
  omega

/-! ## The flag sequence (R152) changes nothing but registers, and of these only VF and V[x] -/

theorem flagThenResult_eq (s : State) (x : Reg) (c : Bool) (f : State → Byte) :
    flagThenResult s x c f = { s with v := (flagThenResult s x c f).v } := by
  unfold flagThenResult
  cases s.config.aluOrder <;> rfl

theorem flagThenResult_other (s : State) (x : Reg) (c : Bool) (f : State → Byte) (r : Reg) (hx : x ≠ r)
    (hf : flagReg ≠ r) : (flagThenResult s x c f).reg r = s.reg r := by
  unfold flagThenResult
  cases s.config.aluOrder <;> simp [setVF_reg, hx, hf]

/-- VF after the sequence, when V[x] is another register. -/
theorem flagThenResult_flag (s : State) (x : Reg) (c : Bool) (f : State → Byte) (h : x ≠ flagReg) :
    (flagThenResult s x c f).reg flagReg = flagByte c := by
  unfold flagThenResult
  cases s.config.aluOrder <;> simp [setVF_reg, h]

/-- V[x] after the sequence, when neither V[x] nor anything the arithmetic reads is VF. -/
theorem flagThenResult_result (s : State) (x : Reg) (c : Bool) (f : State → Byte) (h : x ≠ flagReg)
    (hf : ∀ b, f (s.setVF b) = f s) : (flagThenResult s x c f).reg x = f s := by
  unfold flagThenResult
  cases s.config.aluOrder <;> simp [setVF_reg, Ne.symm h, hf]

/-- V[x] under `SEQUENTIAL`: the arithmetic sees the flag (R152). -/
theorem flagThenResult_sequential (s : State) (x : Reg) (c : Bool) (f : State → Byte)
    (h : s.config.aluOrder = .sequential) : (flagThenResult s x c f).reg x = f (s.setVF (flagByte c)) := by
  simp [flagThenResult, h]

/-- V[x] under `SNAPSHOT_FLAG_FIRST`: the arithmetic sees the pre-operation registers. -/
theorem flagThenResult_flagFirst (s : State) (x : Reg) (c : Bool) (f : State → Byte)
    (h : s.config.aluOrder = .snapshotFlagFirst) : (flagThenResult s x c f).reg x = f s := by
  simp [flagThenResult, h]

/-- V[x] under either snapshot order, when it is not VF: the arithmetic sees the pre-operation registers, VF among them. -/
theorem flagThenResult_snapshot (s : State) (x : Reg) (c : Bool) (f : State → Byte) (h : x ≠ flagReg)
    (ho : s.config.aluOrder ≠ .sequential) : (flagThenResult s x c f).reg x = f s := by
  unfold flagThenResult
  cases hc : s.config.aluOrder <;> simp_all [setVF_reg, Ne.symm h]

/-- VF under `SNAPSHOT_FLAG_LAST`: the flag is what remains. -/
theorem flagThenResult_flagLast (s : State) (x : Reg) (c : Bool) (f : State → Byte)
    (h : s.config.aluOrder = .snapshotFlagLast) : (flagThenResult s x c f).reg flagReg = flagByte c := by
  simp [flagThenResult, h, setVF_reg]

end Sys2Proof.Machine
end

