-- ==== Sys2Proof/Laws/Display.lean ====
section
/-! SUPPORT. The drawing operations: what they can change, which pixels they toggle and what VF becomes, when they go
through and where they stop (spec/44_display.md R203 to R205). -/

namespace Sys2Proof.Machine

/-- `t` is `s` with VF and the framebuffer replaced. -/
def DrawnFrom (s t : State) : Prop := ∃ b : Byte, ∃ f : BitVec 2048, t = (s.setVF b).setFb f

theorem setVF_self (s : State) : s.setVF (s.reg flagReg) = s := by
  show { s with v := s.v.set flagReg.val s.v[flagReg.val] flagReg.isLt } = s
  simp

theorem setVF_setVF (s : State) (b c : Byte) : (s.setVF b).setVF c = s.setVF c := by
  show { s with v := (s.v.set flagReg.val b flagReg.isLt).set flagReg.val c flagReg.isLt } =
    { s with v := s.v.set flagReg.val c flagReg.isLt }
  simp

theorem DrawnFrom.refl (s : State) : DrawnFrom s s := ⟨s.reg flagReg, s.fb, by rw [setVF_self]; rfl⟩

theorem DrawnFrom.trans {s t u : State} (h : DrawnFrom s t) (k : DrawnFrom t u) : DrawnFrom s u := by
  obtain ⟨b, f, rfl⟩ := h
  obtain ⟨c, g, rfl⟩ := k
  exact ⟨c, g, by rw [← setVF_setVF s b c]; rfl⟩

theorem setVF_drawnFrom (s : State) (b : Byte) : DrawnFrom s (s.setVF b) := ⟨b, s.fb, rfl⟩

theorem xorPixel_drawnFrom (s : State) (p : Nat) : DrawnFrom s (xorPixel s p) := by
  unfold xorPixel
  split
  · exact ⟨1, _, rfl⟩
  · exact ⟨s.reg flagReg, _, by rw [setVF_self]⟩

theorem drawBit_cases {s t : State} {x y : Nat} (h : drawBit s x y = .ok t) :
    (∃ p, place s.config.edgeMode x y = .cell p ∧ t = xorPixel s p) ∨
      (place s.config.edgeMode x y = .skip ∧ t = s) := by
  unfold drawBit at h
  split at h
  · next p hp => exact .inl ⟨p, hp, by injection h with h; exact h.symm⟩
  · next hp => exact .inr ⟨hp, by injection h with h; exact h.symm⟩
  · cases h

theorem drawBit_drawnFrom {s t : State} {x y : Nat} (h : drawBit s x y = .ok t) : DrawnFrom s t := by
  obtain ⟨p, -, rfl⟩ | ⟨-, rfl⟩ := drawBit_cases h
  · exact xorPixel_drawnFrom s p
  · exact DrawnFrom.refl t

theorem drawCols_drawnFrom {row : Byte} {ox y : Nat} {cs : List Nat} {s t : State}
    (h : drawCols row ox y cs s = .ok t) : DrawnFrom s t := by
  induction cs generalizing s with
  | nil => injection h with h; subst h; exact DrawnFrom.refl s
  | cons c cs ih =>
    simp only [drawCols] at h
    split at h
    · split at h
      · cases h
      · next s' hs => exact (drawBit_drawnFrom hs).trans (ih h)
    · exact ih h

/-- A draw that succeeds changes nothing but VF and the framebuffer. -/
theorem drawRows_drawnFrom {ox oy : Nat} {rs : List Nat} {s t : State} (h : drawRows ox oy rs s = .ok t) :
    DrawnFrom s t := by
  induction rs generalizing s with
  | nil => injection h with h; subst h; exact DrawnFrom.refl s
  | cons r rs ih =>
    simp only [drawRows] at h
    split at h
    · cases h
    · split at h
      · cases h
      · next s' hs => exact (drawCols_drawnFrom hs).trans (ih h)

/-- Toggling a pixel twice leaves it as it was; other pixels are untouched. -/
theorem xorPixel_pixel (s : State) (p l : Nat) (hl : l < 2048) :
    (xorPixel s p).pixel l = (s.pixel l ^^ decide (p = l)) := by
  unfold xorPixel
  split <;> simp [State.pixel, hl, eq_comm]

theorem xorPixel_flag (s : State) (p : Nat) :
    (xorPixel s p).reg flagReg = if s.pixel p then 1 else s.reg flagReg := by
  unfold xorPixel
  split <;> simp [setVF_reg]

/-! ## Exactly what a draw does to the pixels and to VF -/

/-- From `s` to `t` exactly the pixels of `hit` were toggled, and VF became 1 if one of them was lit, else it kept its
value. -/
structure Toggled (hit : Nat → Prop) (s t : State) : Prop where
  pixel : ∀ l < 2048, (t.pixel l ≠ s.pixel l ↔ hit l)
  lit : (∃ l < 2048, hit l ∧ s.pixel l = true) → t.reg flagReg = 1
  unlit : (¬ ∃ l < 2048, hit l ∧ s.pixel l = true) → t.reg flagReg = s.reg flagReg

theorem Toggled.none (s : State) : Toggled (fun _ => False) s s :=
  ⟨fun _ _ => by simp, fun ⟨_, _, h, _⟩ => h.elim, fun _ => rfl⟩

theorem Toggled.congr {hit hit' : Nat → Prop} {s t : State} (h : Toggled hit s t) (e : ∀ l, hit l ↔ hit' l) :
    Toggled hit' s t := by
  rwa [show hit = hit' from funext fun l => propext (e l)] at h

/-- Two draws that touch different pixels make one draw. -/
theorem Toggled.comp {a b : Nat → Prop} {s t u : State} (h : Toggled a s t) (k : Toggled b t u)
    (disjoint : ∀ l, a l → ¬ b l) : Toggled (fun l => a l ∨ b l) s u := by
  have pa : ∀ l < 2048, b l → t.pixel l = s.pixel l := fun l hl hb => by
    by_contra hne
    exact disjoint l ((h.pixel l hl).mp hne) hb
  refine ⟨fun l hl => ?_, ?_, ?_⟩
  · have h1 := h.pixel l hl
    have h2 := k.pixel l hl
    have h3 := disjoint l
    rw [← h1, ← h2] at h3 ⊢
    revert h3
    cases s.pixel l <;> cases t.pixel l <;> cases u.pixel l <;> simp
  · rintro ⟨l, hl, ha | hb, hs⟩
    · by_cases hk : ∃ l < 2048, b l ∧ t.pixel l = true
      · exact k.lit hk
      · rw [k.unlit hk]
        exact h.lit ⟨l, hl, ha, hs⟩
    · exact k.lit ⟨l, hl, hb, by rw [pa l hl hb]; exact hs⟩
  · intro hn
    rw [k.unlit, h.unlit]
    · rintro ⟨l, hl, ha, hs⟩
      exact hn ⟨l, hl, .inl ha, hs⟩
    · rintro ⟨l, hl, hb, ht⟩
      exact hn ⟨l, hl, .inr hb, by rw [← pa l hl hb]; exact ht⟩

theorem xorPixel_toggled (s : State) (p : Nat) (hp : p < 2048) : Toggled (fun l => p = l) s (xorPixel s p) := by
  refine ⟨fun l hl => ?_, ?_, ?_⟩
  · rw [xorPixel_pixel s p l hl]
    by_cases h : p = l <;> cases s.pixel l <;> simp [h]
  · rintro ⟨l, -, rfl, hs⟩
    rw [xorPixel_flag, if_pos hs]
  · intro hn
    rw [xorPixel_flag, if_neg fun h => hn ⟨p, hp, rfl, h⟩]

/-- A placed pixel is inside the buffer (R203). -/
theorem place_lt {m : Config.EdgeMode} {x y l : Nat} (h : place m x y = .cell l) : l < 2048 := by
  unfold place at h
  cases m <;> dsimp only at h
  case wrap => injection h with h; simp only [linearIndex, Config.fbW, Config.fbH] at *; omega
  all_goals
    split at h
    · injection h with h; simp only [linearIndex, Config.fbW, Config.fbH] at *; omega
    · cases h

/-- Two set bits of one sprite are never placed on one pixel (R207). -/
theorem place_inj {m : Config.EdgeMode} {ox oy c r c' r' l : Nat} (hc : c < 8) (hc' : c' < 8) (hr : r < 16) (hr' : r' < 16)
    (h : place m (ox + c) (oy + r) = .cell l) (h' : place m (ox + c') (oy + r') = .cell l) : c = c' ∧ r = r' := by
  unfold place at h h'
  cases m <;> dsimp only at h h'
  case wrap =>
    injection h with h
    injection h' with h'
    simp only [linearIndex, Config.fbW, Config.fbH] at *
    omega
  all_goals
    split at h
    · split at h'
      · injection h with h
        injection h' with h'
        simp only [linearIndex, Config.fbW, Config.fbH] at *
        omega
      · cases h'
    · cases h

theorem drawBit_toggled {s t : State} {x y : Nat} (h : drawBit s x y = .ok t) :
    Toggled (fun l => place s.config.edgeMode x y = .cell l) s t := by
  obtain ⟨p, hp, rfl⟩ | ⟨hp, rfl⟩ := drawBit_cases h
  · refine (xorPixel_toggled s p (place_lt hp)).congr fun l => ?_
    rw [hp]
    simp
  · refine (Toggled.none t).congr fun l => ?_
    rw [hp]
    simp

theorem DrawnFrom.config {s t : State} (h : DrawnFrom s t) : t.config = s.config := by obtain ⟨b, f, rfl⟩ := h; rfl
theorem DrawnFrom.mem {s t : State} (h : DrawnFrom s t) : t.mem = s.mem := by obtain ⟨b, f, rfl⟩ := h; rfl
theorem DrawnFrom.i {s t : State} (h : DrawnFrom s t) : t.i = s.i := by obtain ⟨b, f, rfl⟩ := h; rfl
theorem DrawnFrom.pcFetch {s t : State} (h : DrawnFrom s t) : t.pcFetch = s.pcFetch := by obtain ⟨b, f, rfl⟩ := h; rfl

/-- One row toggles the pixels its set bits are placed on (R205). -/
theorem drawCols_toggled {row : Byte} {ox oy r : Nat} (hr : r < 16) {cs : List Nat} (hcs : cs.Nodup)
    (hlt : ∀ c ∈ cs, c < 8) {s t : State} (h : drawCols row ox (oy + r) cs s = .ok t) :
    Toggled (fun l => ∃ c ∈ cs, spriteBit row c = true ∧ place s.config.edgeMode (ox + c) (oy + r) = .cell l) s t := by
  induction cs generalizing s with
  | nil => injection h with h; subst h; exact (Toggled.none s).congr fun l => by simp
  | cons c cs ih =>
    obtain ⟨hn, hcs⟩ := List.nodup_cons.mp hcs
    have hc := hlt c (by simp)
    have hlt' : ∀ d ∈ cs, d < 8 := fun d hd => hlt d (by simp [hd])
    simp only [drawCols] at h
    split at h
    · next hb =>
      split at h
      · cases h
      · next s' hs =>
        have k := ih hcs hlt' h
        rw [(drawBit_drawnFrom hs).config] at k
        refine ((drawBit_toggled hs).comp k ?_).congr fun l => by simp [hb]
        rintro l h1 ⟨d, hd, -, h2⟩
        obtain ⟨rfl, -⟩ := place_inj hc (hlt' d hd) hr hr h1 h2
        exact hn hd
    · next hb =>
      exact (ih hcs hlt' h).congr fun l => by simp [hb]

/-- The rows toggle the pixels their set bits are placed on (R205). -/
theorem drawRows_toggled {ox oy : Nat} {rs : List Nat} (hrs : rs.Nodup) (hlt : ∀ r ∈ rs, r < 16) {s t : State}
    (h : drawRows ox oy rs s = .ok t) :
    Toggled (fun l => ∃ r ∈ rs, ∃ c < 8, spriteBit (s.mem.read (s.i.toNat + r)) c = true ∧
      place s.config.edgeMode (ox + c) (oy + r) = .cell l) s t := by
  induction rs generalizing s with
  | nil => injection h with h; subst h; exact (Toggled.none s).congr fun l => by simp
  | cons r rs ih =>
    obtain ⟨hn, hrs⟩ := List.nodup_cons.mp hrs
    have hr := hlt r (by simp)
    have hlt' : ∀ q ∈ rs, q < 16 := fun q hq => hlt q (by simp [hq])
    simp only [drawRows] at h
    split at h
    · cases h
    · next row hrow =>
      split at h
      · cases h
      · next s' hs =>
        have hrow : row = s.mem.read (s.i.toNat + r) := by
          unfold memRead at hrow
          split at hrow
          · injection hrow with hrow; exact hrow.symm
          · cases hrow
        subst hrow
        have k := ih hrs hlt' h
        have d := drawCols_drawnFrom hs
        rw [d.config, d.mem, d.i] at k
        have j := drawCols_toggled hr List.nodup_range (fun c hc => List.mem_range.mp hc) hs
        refine (j.comp k ?_).congr fun l => by simp
        rintro l ⟨c, hc, -, h1⟩ ⟨q, hq, c', hc', -, h2⟩
        obtain ⟨-, rfl⟩ := place_inj (List.mem_range.mp hc) hc' hr (hlt' q hq) h1 h2
        exact hn hq

/-! ## When a draw goes through, and where it faults -/

theorem drawBit_ok {s : State} {x y : Nat} (h : place s.config.edgeMode x y ≠ .outside) : ∃ t, drawBit s x y = .ok t := by
  unfold drawBit
  split
  · exact ⟨_, rfl⟩
  · exact ⟨_, rfl⟩
  · next hp => exact absurd hp h

/-- The columns before one that is placed outside, and the fault there. -/
theorem drawCols_append_ok {row : Byte} {ox y : Nat} {cs : List Nat} (ds : List Nat) {s : State}
    (h : ∀ c ∈ cs, spriteBit row c = true → place s.config.edgeMode (ox + c) y ≠ .outside) :
    ∃ t, DrawnFrom s t ∧ drawCols row ox y (cs ++ ds) s = drawCols row ox y ds t := by
  induction cs generalizing s with
  | nil => exact ⟨s, DrawnFrom.refl s, rfl⟩
  | cons c cs ih =>
    simp only [List.cons_append, drawCols]
    split
    · next hb =>
      obtain ⟨s', hs⟩ := drawBit_ok (h c (by simp) hb)
      have d := drawBit_drawnFrom hs
      obtain ⟨t, ht, e⟩ := ih (s := s') fun d' hd hb' => by rw [d.config]; exact h d' (by simp [hd]) hb'
      exact ⟨t, d.trans ht, by simp only [hs, e]⟩
    · exact ih fun d' hd hb' => h d' (by simp [hd]) hb'

/-- A row all of whose set bits are placed inside or nowhere is drawn. -/
theorem drawCols_ok {row : Byte} {ox y : Nat} {cs : List Nat} {s : State}
    (h : ∀ c ∈ cs, spriteBit row c = true → place s.config.edgeMode (ox + c) y ≠ .outside) :
    ∃ t, DrawnFrom s t ∧ drawCols row ox y cs s = .ok t := by
  obtain ⟨t, ht, e⟩ := drawCols_append_ok [] h
  rw [List.append_nil] at e
  exact ⟨t, ht, e⟩

/-- The rows before the first that faults are drawn. -/
theorem drawRows_append_ok {ox oy : Nat} {rs : List Nat} (qs : List Nat) {s : State}
    (h : ∀ r ∈ rs, s.i.toNat + r < 4096 ∧ ∀ c < 8, spriteBit (s.mem.read (s.i.toNat + r)) c = true →
      place s.config.edgeMode (ox + c) (oy + r) ≠ .outside) :
    ∃ t, DrawnFrom s t ∧ drawRows ox oy (rs ++ qs) s = drawRows ox oy qs t := by
  induction rs generalizing s with
  | nil => exact ⟨s, DrawnFrom.refl s, rfl⟩
  | cons r rs ih =>
    obtain ⟨h1, h2⟩ := h r (by simp)
    obtain ⟨s', d, hs⟩ := drawCols_ok (row := s.mem.read (s.i.toNat + r)) (ox := ox) (y := oy + r)
      (cs := List.range Config.spriteW) (s := s) fun c hc hb => h2 c (List.mem_range.mp hc) hb
    obtain ⟨t, ht, e⟩ := ih (s := s') fun q hq => by rw [d.config, d.mem, d.i]; exact h q (by simp [hq])
    exact ⟨t, d.trans ht, by simp only [List.cons_append, drawRows, memRead_ok s .read s.pcFetch h1, hs, e]⟩

/-- A sprite none of whose rows faults is drawn. -/
theorem drawRows_ok {ox oy : Nat} {rs : List Nat} {s : State}
    (h : ∀ r ∈ rs, s.i.toNat + r < 4096 ∧ ∀ c < 8, spriteBit (s.mem.read (s.i.toNat + r)) c = true →
      place s.config.edgeMode (ox + c) (oy + r) ≠ .outside) :
    ∃ t, DrawnFrom s t ∧ drawRows ox oy rs s = .ok t := by
  obtain ⟨t, ht, e⟩ := drawRows_append_ok [] h
  rw [List.append_nil] at e
  exact ⟨t, ht, e⟩

/-! ## Where a draw that faults has faulted -/

theorem drawBit_error {s : State} {x y : Nat} {f : Fault} (h : drawBit s x y = .error f) :
    place s.config.edgeMode x y = .outside ∧ f = .drawRange x y s.pcFetch := by
  unfold drawBit at h
  split at h
  · cases h
  · cases h
  · next hp => exact ⟨hp, by injection h with h; exact h.symm⟩

/-- A row faults only at a set bit that is placed outside the buffer (R203). -/
theorem drawCols_error {row : Byte} {ox y : Nat} {cs : List Nat} {s : State} {f : Fault}
    (h : drawCols row ox y cs s = .error f) :
    ∃ c ∈ cs, spriteBit row c = true ∧ place s.config.edgeMode (ox + c) y = .outside ∧
      f = .drawRange (ox + c) y s.pcFetch := by
  induction cs generalizing s with
  | nil => cases h
  | cons c cs ih =>
    simp only [drawCols] at h
    split at h
    · next hb =>
      split at h
      · next g hg =>
        injection h with h
        subst h
        obtain ⟨hp, e⟩ := drawBit_error hg
        exact ⟨c, by simp, hb, hp, e⟩
      · next s' hs =>
        have d := drawBit_drawnFrom hs
        obtain ⟨c', hc, hb', hp, e⟩ := ih h
        exact ⟨c', by simp [hc], hb', by rwa [d.config] at hp, by rwa [d.pcFetch] at e⟩
    · obtain ⟨c', hc, r⟩ := ih h
      exact ⟨c', by simp [hc], r⟩

/-- A draw faults only at a row outside memory, or at a set bit that is placed outside the buffer (R205). -/
theorem drawRows_error {ox oy : Nat} {rs : List Nat} {s : State} {f : Fault} (h : drawRows ox oy rs s = .error f) :
    ∃ r ∈ rs, (4096 ≤ s.i.toNat + r ∧ f = .memOob (s.i.toNat + r) .read (some s.pcFetch)) ∨
      ∃ c < 8, spriteBit (s.mem.read (s.i.toNat + r)) c = true ∧
        place s.config.edgeMode (ox + c) (oy + r) = .outside ∧ f = .drawRange (ox + c) (oy + r) s.pcFetch := by
  induction rs generalizing s with
  | nil => cases h
  | cons r rs ih =>
    by_cases hm : s.i.toNat + r < 4096
    · simp only [drawRows, memRead_ok s .read s.pcFetch hm] at h
      split at h
      · next g hg =>
        injection h with h
        subst h
        obtain ⟨c, hc, e⟩ := drawCols_error hg
        exact ⟨r, by simp, .inr ⟨c, List.mem_range.mp hc, e⟩⟩
      · next s' hs =>
        have d := drawCols_drawnFrom hs
        obtain ⟨q, hq, e⟩ := ih h
        rw [d.i, d.mem, d.config, d.pcFetch] at e
        exact ⟨q, by simp [hq], e⟩
    · simp only [drawRows, memRead_oob s .read s.pcFetch (Nat.not_lt.mp hm)] at h
      injection h with h
      exact ⟨r, by simp, .inl ⟨Nat.not_lt.mp hm, h.symm⟩⟩

end Sys2Proof.Machine
end

