-- ==== Sys2Proof/Laws/Encoding.lean ====
section
/-! SUPPORT. The fields of a word as numbers, and of the words the encoder builds (spec/30_encoding.md R81, R82). -/

namespace Sys2Proof

/-! ## Fields as numbers (R81) -/

theorem fieldF_toNat (w : Word) : (fieldF w).toNat = w.toNat / 4096 := by
  have := w.isLt
  simp only [fieldF, BitVec.extractLsb'_toNat, Nat.shiftRight_eq_div_pow]
  omega

theorem fieldX_val (w : Word) : (fieldX w).val = w.toNat / 256 % 16 := by
  simp [fieldX, BitVec.extractLsb'_toNat, Nat.shiftRight_eq_div_pow]

theorem fieldY_val (w : Word) : (fieldY w).val = w.toNat / 16 % 16 := by
  simp [fieldY, BitVec.extractLsb'_toNat, Nat.shiftRight_eq_div_pow]

theorem fieldN_eq (w : Word) : fieldN w = w.toNat % 16 := by
  simp [fieldN, BitVec.extractLsb'_toNat]

theorem fieldNN_toNat (w : Word) : (fieldNN w).toNat = w.toNat % 256 := by
  simp [fieldNN, BitVec.extractLsb'_toNat]

theorem fieldNNN_toNat (w : Word) : (fieldNNN w).toNat = w.toNat % 4096 := by
  simp [fieldNNN, BitVec.extractLsb'_toNat]

/-! ## Built words as numbers (R82) -/

theorem encodeA_toNat (f : BitVec 4) (nnn : BitVec 12) : (encodeA f nnn).toNat = f.toNat * 4096 + nnn.toNat := by
  simp only [encodeA, BitVec.toNat_append]
  rw [← Nat.shiftLeft_add_eq_or_of_lt nnn.isLt, Nat.shiftLeft_eq]

theorem encodeXNN_toNat (f : BitVec 4) (x : Reg) (nn : Byte) :
    (encodeXNN f x nn).toNat = f.toNat * 4096 + x.val * 256 + nn.toNat := by
  have h := encodeA_toNat f (regBits x ++ nn)
  have hx : (regBits x ++ nn : BitVec 12).toNat = x.val * 256 + nn.toNat := by
    simp only [regBits, BitVec.toNat_append]
    rw [← Nat.shiftLeft_add_eq_or_of_lt nn.isLt, BitVec.toNat_ofNat, Nat.mod_eq_of_lt x.isLt, Nat.shiftLeft_eq]
  rw [hx, ← Nat.add_assoc] at h
  exact h

theorem encodeXYN_toNat (f : BitVec 4) (x y : Reg) (n : BitVec 4) :
    (encodeXYN f x y n).toNat = f.toNat * 4096 + x.val * 256 + y.val * 16 + n.toNat := by
  have h := encodeXNN_toNat f x (regBits y ++ n)
  have hy : (regBits y ++ n : BitVec 8).toNat = y.val * 16 + n.toNat := by
    simp only [regBits, BitVec.toNat_append]
    rw [← Nat.shiftLeft_add_eq_or_of_lt n.isLt, BitVec.toNat_ofNat, Nat.mod_eq_of_lt y.isLt, Nat.shiftLeft_eq]
  rw [hy, ← Nat.add_assoc] at h
  exact h

/-- Two bytes combined big-endian, as a number (R54). -/
theorem wordOfBytes_toNat (hi lo : Byte) : (wordOfBytes hi lo).toNat = hi.toNat * 256 + lo.toNat := by
  simp only [wordOfBytes, BitVec.toNat_append]
  rw [← Nat.shiftLeft_add_eq_or_of_lt lo.isLt, Nat.shiftLeft_eq]

/-- A word taken apart into its bytes and put together again (R54, R55). -/
@[simp] theorem wordOfBytes_high_low (w : Word) : wordOfBytes (highByte w) (lowByte w) = w := by
  apply BitVec.eq_of_toNat_eq
  rw [wordOfBytes_toNat]
  have := w.isLt
  simp only [highByte, lowByte, BitVec.extractLsb'_toNat, Nat.shiftRight_eq_div_pow]
  omega

/-! ## Fields of built words -/

@[simp] theorem fieldF_encodeA (f : BitVec 4) (nnn : BitVec 12) : fieldF (encodeA f nnn) = f :=
  BitVec.eq_of_toNat_eq (by rw [fieldF_toNat, encodeA_toNat]; have := nnn.isLt; omega)

@[simp] theorem fieldNNN_encodeA (f : BitVec 4) (nnn : BitVec 12) : fieldNNN (encodeA f nnn) = nnn :=
  BitVec.eq_of_toNat_eq (by rw [fieldNNN_toNat, encodeA_toNat]; have := nnn.isLt; omega)

@[simp] theorem fieldF_encodeXNN (f : BitVec 4) (x : Reg) (nn : Byte) : fieldF (encodeXNN f x nn) = f :=
  fieldF_encodeA f _

@[simp] theorem fieldX_encodeXNN (f : BitVec 4) (x : Reg) (nn : Byte) : fieldX (encodeXNN f x nn) = x :=
  Fin.ext (by rw [fieldX_val, encodeXNN_toNat]; have := x.isLt; have := nn.isLt; omega)

@[simp] theorem fieldNN_encodeXNN (f : BitVec 4) (x : Reg) (nn : Byte) : fieldNN (encodeXNN f x nn) = nn :=
  BitVec.eq_of_toNat_eq (by rw [fieldNN_toNat, encodeXNN_toNat]; have := nn.isLt; omega)

@[simp] theorem fieldF_encodeXYN (f : BitVec 4) (x y : Reg) (n : BitVec 4) : fieldF (encodeXYN f x y n) = f :=
  fieldF_encodeA f _

@[simp] theorem fieldX_encodeXYN (f : BitVec 4) (x y : Reg) (n : BitVec 4) : fieldX (encodeXYN f x y n) = x :=
  fieldX_encodeXNN f x _

@[simp] theorem fieldY_encodeXYN (f : BitVec 4) (x y : Reg) (n : BitVec 4) : fieldY (encodeXYN f x y n) = y :=
  Fin.ext (by rw [fieldY_val, encodeXYN_toNat]; have := y.isLt; have := n.isLt; omega)

@[simp] theorem fieldN_encodeXYN (f : BitVec 4) (x y : Reg) (n : BitVec 4) : fieldN (encodeXYN f x y n) = n.toNat := by
  rw [fieldN_eq, encodeXYN_toNat]
  have := n.isLt
  omega

/-! ## A word is built from its own fields -/

theorem encodeA_fields (w : Word) : encodeA (fieldF w) (fieldNNN w) = w :=
  BitVec.eq_of_toNat_eq (by rw [encodeA_toNat, fieldF_toNat, fieldNNN_toNat]; omega)

theorem encodeXNN_fields (w : Word) : encodeXNN (fieldF w) (fieldX w) (fieldNN w) = w :=
  BitVec.eq_of_toNat_eq (by rw [encodeXNN_toNat, fieldF_toNat, fieldX_val, fieldNN_toNat]; omega)

theorem encodeXYN_fields (w : Word) (n : BitVec 4) (h : fieldN w = n.toNat) :
    encodeXYN (fieldF w) (fieldX w) (fieldY w) n = w :=
  BitVec.eq_of_toNat_eq (by
    rw [encodeXYN_toNat, fieldF_toNat, fieldX_val, fieldY_val, ← h, fieldN_eq]
    omega)

end Sys2Proof
end

