-- ==== Sys2Proof/Laws/Exec.lean ====
section
/-! SUPPORT. Said once: what each instruction leaves when it answers a next state (`Effect`, `exec_effect`), when each
faults (`exec_fault` lemmas), and what a step is. Invariants and frames are derived from these. -/

namespace Sys2Proof.Machine

/-! ## Outcomes taken apart -/

theorem complete_next {r : Except Fault State} {t : State} (h : complete r = .next t) : r = .ok t := by
  cases r with
  | ok s => injection h with h; rw [h]
  | error f => cases h

theorem complete_fault {r : Except Fault State} {f : Fault} (h : complete r = .fault f) : r = .error f := by
  cases r with
  | ok s => cases h
  | error g => injection h with h; rw [h]

/-! ## The instructions that can fault, when they do not -/

theorem execRet_ok (s : State) (h : 0 < s.sp.val) :
    execRet s = .next { s with
      pc := s.stack[s.sp.val - 1]'(by have := s.sp.isLt; omega)
      sp := ⟨s.sp.val - 1, by have := s.sp.isLt; omega⟩ } := by
  simp only [execRet, pop_ok s h]
  rfl

theorem execRet_empty (s : State) (h : ¬ 0 < s.sp.val) : execRet s = .fault (.stackUnderflow s.pcFetch) := by
  simp only [execRet, pop_empty s h, complete_error]

theorem execCall_ok (nnn : BitVec 12) (s : State) (h : s.sp.val < 16) :
    execCall nnn s = .next { s with
      pc := zextAddr nnn
      stack := s.stack.set s.sp.val s.pc h
      sp := ⟨s.sp.val + 1, Nat.succ_lt_succ h⟩ } := by
  simp only [execCall, push_ok s s.pc h]
  rfl

theorem execCall_full (nnn : BitVec 12) (s : State) (h : ¬ s.sp.val < 16) :
    execCall nnn s = .fault (.stackOverflow s.pcFetch) := by
  simp only [execCall, push_full s s.pc h, complete_error]

theorem execSkp_ok (x : Reg) (s : State) (h : (s.reg x).toNat < 16) :
    execSkp x s = .next (s.skipIf s.keys[(s.reg x).toNat]) := by
  simp only [execSkp, keyOperand_ok s x h, complete_ok]

theorem execSknp_ok (x : Reg) (s : State) (h : (s.reg x).toNat < 16) :
    execSknp x s = .next (s.skipIf (!s.keys[(s.reg x).toNat])) := by
  simp only [execSknp, keyOperand_ok s x h, complete_ok]

theorem execStRegs_ok (x : Reg) (s : State) (h : s.i.toNat + x.val < 4096) :
    execStRegs x s = .next (s.setMem (Memory.writeAll (regsUpTo s x) s.i.toNat s.mem)) := by
  rw [execStRegs, storeBytes_ok _ _ _ _ (.inr (by rw [regsUpTo_length]; omega)), complete_ok]

theorem execLdBX_ok (x : Reg) (s : State) (h : s.i.toNat + 2 < 4096) :
    execLdBX x s = .next (s.setMem (Memory.writeAll (decimalDigits (s.reg x)) s.i.toNat s.mem)) := by
  rw [execLdBX, storeBytes_ok _ _ _ _ (.inr (by simp only [decimalDigits, List.length_cons, List.length_nil]; omega)),
    complete_ok]

theorem execLdRegs_ok (x : Reg) (s : State) (h : s.i.toNat + x.val < 4096) :
    execLdRegs x s = .next (loadRegs s ((List.range' s.i.toNat (x.val + 1)).map s.mem.read)) := by
  simp only [execLdRegs, readBytes_ok s _ _ (.inr (show s.i.toNat + (x.val + 1) ≤ 4096 by omega)), complete_ok]

/-! ## The same, when they answer a next state -/

theorem execRet_next {s t : State} (h : execRet s = .next t) :
    ∃ _ : 0 < s.sp.val, t = { s with
      pc := s.stack[s.sp.val - 1]'(by have := s.sp.isLt; omega)
      sp := ⟨s.sp.val - 1, by have := s.sp.isLt; omega⟩ } := by
  have h := complete_next h
  by_cases hs : 0 < s.sp.val
  · rw [pop_ok s hs] at h
    injection h with h
    exact ⟨hs, h.symm⟩
  · rw [pop_empty s hs] at h
    cases h

theorem execCall_next {nnn : BitVec 12} {s t : State} (h : execCall nnn s = .next t) :
    ∃ hs : s.sp.val < 16, t = { s with
      pc := zextAddr nnn
      stack := s.stack.set s.sp.val s.pc hs
      sp := ⟨s.sp.val + 1, Nat.succ_lt_succ hs⟩ } := by
  have h := complete_next h
  by_cases hs : s.sp.val < 16
  · rw [push_ok s _ hs] at h
    injection h with h
    exact ⟨hs, h.symm⟩
  · rw [push_full s _ hs] at h
    cases h

theorem execSkp_next {x : Reg} {s t : State} (h : execSkp x s = .next t) :
    ∃ _ : (s.reg x).toNat < 16, t = s.skipIf s.keys[(s.reg x).toNat] := by
  have h := complete_next h
  by_cases hs : (s.reg x).toNat < 16
  · rw [keyOperand_ok s _ hs] at h
    injection h with h
    exact ⟨hs, h.symm⟩
  · rw [keyOperand_range s _ hs] at h
    cases h

theorem execSknp_next {x : Reg} {s t : State} (h : execSknp x s = .next t) :
    ∃ _ : (s.reg x).toNat < 16, t = s.skipIf (!s.keys[(s.reg x).toNat]) := by
  have h := complete_next h
  by_cases hs : (s.reg x).toNat < 16
  · rw [keyOperand_ok s _ hs] at h
    injection h with h
    exact ⟨hs, h.symm⟩
  · rw [keyOperand_range s _ hs] at h
    cases h

theorem execDrw_next {x y : Reg} {n : Nat} {s t : State} (h : execDrw x y n s = .next t) :
    ∃ b f, t = ((s.setVF b).setFb f).setDirty true := by
  have h := complete_next h
  split at h
  · cases h
  · next s' hs =>
    injection h with h
    subst h
    obtain ⟨b, f, rfl⟩ := drawRows_drawnFrom hs
    exact ⟨b, f, by rw [setVF_setVF]⟩

theorem execLdRegs_next {x : Reg} {s t : State} (h : execLdRegs x s = .next t) :
    t = loadRegs s ((List.range' s.i.toNat (x.val + 1)).map s.mem.read) ∧ s.i.toNat + x.val < 4096 := by
  have h := complete_next h
  by_cases hb : s.i.toNat + x.val < 4096
  · rw [readBytes_ok s _ _ (by omega)] at h
    injection h with h
    exact ⟨h.symm, hb⟩
  · rw [readBytes_oob s _ _ (by omega) (by omega)] at h
    cases h

theorem storeBytes_next {p : Option Word} {bs : List Byte} {a : Nat} {s t : State}
    (h : complete (storeBytes p bs a s) = .next t) :
    (bs = [] ∨ a + bs.length ≤ 4096) ∧ t = s.setMem (Memory.writeAll bs a s.mem) := by
  have h := complete_next h
  rcases storeBytes_cases p bs a s with ⟨h', e⟩ | ⟨-, e⟩
  · rw [e] at h
    injection h with h
    exact ⟨h', h.symm⟩
  · rw [e] at h
    cases h

/-! ## What each instruction leaves -/

/-- What `t` can be when the instruction takes `s` to it: the fields it writes, and for control transfer and stores their
values. -/
def Effect (i : Instr) (s t : State) : Prop :=
  match i with
  | .cls => t = (s.setFb 0).setDirty true
  | .ret => ∃ _ : 0 < s.sp.val, t = { s with
      pc := s.stack[s.sp.val - 1]'(by have := s.sp.isLt; omega)
      sp := ⟨s.sp.val - 1, by have := s.sp.isLt; omega⟩ }
  | .jp nnn => t = s.setPc (zextAddr nnn)
  | .call nnn => ∃ hs : s.sp.val < 16, t = { s with
      pc := zextAddr nnn
      stack := s.stack.set s.sp.val s.pc hs
      sp := ⟨s.sp.val + 1, Nat.succ_lt_succ hs⟩ }
  | .seImm _ _ => ∃ c, skipCondition s i = some c ∧ t = s.skipIf c
  | .sneImm _ _ => ∃ c, skipCondition s i = some c ∧ t = s.skipIf c
  | .seReg _ _ => ∃ c, skipCondition s i = some c ∧ t = s.skipIf c
  | .ldImm x _ => ∃ b, t = s.setV x b
  | .addImm x _ => ∃ b, t = s.setV x b
  | .ldReg x _ => ∃ b, t = s.setV x b
  | .orReg x _ => ∃ b, t = s.setV x b
  | .andReg x _ => ∃ b, t = s.setV x b
  | .xorReg x _ => ∃ b, t = s.setV x b
  | .addReg x _ => ∃ c f, t = flagThenResult s x c f
  | .sub x _ => ∃ c f, t = flagThenResult s x c f
  | .shr x _ => ∃ c f, t = flagThenResult s x c f
  | .subn x _ => ∃ c f, t = flagThenResult s x c f
  | .shl x _ => ∃ c f, t = flagThenResult s x c f
  | .sneReg _ _ => ∃ c, skipCondition s i = some c ∧ t = s.skipIf c
  | .ldI nnn => t = s.setI (zextAddr nnn)
  | .jpV0 nnn => t = s.setPc (indexedTarget s nnn)
  | .rnd x _ => ∃ b, t = (drawRandom s).2.setV x b
  | .drw _ _ _ => ∃ b f, t = ((s.setVF b).setFb f).setDirty true
  | .skp _ => ∃ c, skipCondition s i = some c ∧ t = s.skipIf c
  | .sknp _ => ∃ c, skipCondition s i = some c ∧ t = s.skipIf c
  | .ldXDt x => t = s.setV x s.dt
  | .ldXK x => t = s.startWait x
  | .ldDtX x => t = s.setDt (s.reg x)
  | .ldStX x => t = s.setSt (s.reg x)
  | .addIX x => t = s.setI (s.i + zextByte (s.reg x))
  | .ldFX x => t = s.setI (glyphAddress (s.reg x))
  | .ldBX x => (decimalDigits (s.reg x) = [] ∨ s.i.toNat + (decimalDigits (s.reg x)).length ≤ 4096) ∧
      t = s.setMem (Memory.writeAll (decimalDigits (s.reg x)) s.i.toNat s.mem)
  | .stRegs x => (regsUpTo s x = [] ∨ s.i.toNat + (regsUpTo s x).length ≤ 4096) ∧
      t = s.setMem (Memory.writeAll (regsUpTo s x) s.i.toNat s.mem)
  | .ldRegs x => t = loadRegs s ((List.range' s.i.toNat (x.val + 1)).map s.mem.read) ∧ s.i.toNat + x.val < 4096

/-- The inversion lemma of `exec`: a next state is one that the instruction's effect allows. -/
theorem exec_effect {i : Instr} {s t : State} (h : exec i s = .next t) : Effect i s t := by
  cases i with
  | ret => exact execRet_next h
  | call nnn => exact execCall_next h
  | drw x y n => exact execDrw_next h
  | ldRegs x => exact execLdRegs_next h
  | ldBX x => exact storeBytes_next h
  | stRegs x => exact storeBytes_next h
  | skp x =>
    obtain ⟨hs, e⟩ := execSkp_next h
    exact ⟨_, by simp [skipCondition, hs, List.getD_eq_getElem?_getD], e⟩
  | sknp x =>
    obtain ⟨hs, e⟩ := execSknp_next h
    exact ⟨_, by simp [skipCondition, hs, List.getD_eq_getElem?_getD], e⟩
  | seImm x nn => injection h with h; exact ⟨_, rfl, h.symm⟩
  | sneImm x nn => injection h with h; exact ⟨_, rfl, h.symm⟩
  | seReg x y => injection h with h; exact ⟨_, rfl, h.symm⟩
  | sneReg x y => injection h with h; exact ⟨_, rfl, h.symm⟩
  | addReg x y => injection h with h; exact ⟨_, _, h.symm⟩
  | sub x y => injection h with h; exact ⟨_, _, h.symm⟩
  | shr x y => injection h with h; exact ⟨_, _, h.symm⟩
  | subn x y => injection h with h; exact ⟨_, _, h.symm⟩
  | shl x y => injection h with h; exact ⟨_, _, h.symm⟩
  | rnd x nn => injection h with h; exact ⟨_, h.symm⟩
  | ldImm x nn => injection h with h; exact ⟨_, h.symm⟩
  | addImm x nn => injection h with h; exact ⟨_, h.symm⟩
  | ldReg x y => injection h with h; exact ⟨_, h.symm⟩
  | orReg x y => injection h with h; exact ⟨_, h.symm⟩
  | andReg x y => injection h with h; exact ⟨_, h.symm⟩
  | xorReg x y => injection h with h; exact ⟨_, h.symm⟩
  | cls => injection h with h; exact h.symm
  | jp nnn => injection h with h; exact h.symm
  | jpV0 nnn => injection h with h; exact h.symm
  | ldI nnn => injection h with h; exact h.symm
  | addIX x => injection h with h; exact h.symm
  | ldFX x => injection h with h; exact h.symm
  | ldXDt x => injection h with h; exact h.symm
  | ldXK x => injection h with h; exact h.symm
  | ldDtX x => injection h with h; exact h.symm
  | ldStX x => injection h with h; exact h.symm

/-! ## The sprite geometry of Safety.lean is that of the instruction (R201 to R203) -/

theorem spriteAt_eq (s : State) (r c : Nat) : spriteAt s r c = spriteBit (s.mem.read (s.i.toNat + r)) c := by
  rw [spriteAt, spriteBit, BitVec.getLsbD, Nat.testBit_eq_decide_div_mod_eq]

theorem edgePlace_eq (mode : Config.EdgeMode) (X Y : Nat) : edgePlace mode X Y = place mode X Y := by
  cases mode <;> rfl

theorem spritePlace_eq (s : State) (x y : Reg) (r c : Nat) :
    spritePlace s x y r c = place s.config.edgeMode (originX s x + c) (originY s y + r) := edgePlace_eq _ _ _

/-- A drawable sprite is drawn (R205). -/
theorem execDrw_ok (x y : Reg) (n : Nat) (s : State) (h : drawable s x y n) :
    ∃ t, DrawnFrom (s.setVF 0) t ∧
      drawRows (originX s x) (originY s y) (List.range n) (s.setVF 0) = .ok t ∧
      execDrw x y n s = .next (t.setDirty true) := by
  obtain ⟨t, d, e⟩ := drawRows_ok (ox := originX s x) (oy := originY s y) (rs := List.range n) (s := s.setVF 0)
    fun r hr => ⟨(h r (List.mem_range.mp hr)).1, fun c hc hb => by
      have := (h r (List.mem_range.mp hr)).2 c hc (by rw [spriteAt_eq]; exact hb)
      rwa [spritePlace_eq] at this⟩
  exact ⟨t, d, e, by simp only [execDrw, e, complete_ok]⟩

/-- A draw toggles the pixels the sprite hits (R204, R205). -/
theorem drawRows_spriteHits {x y : Reg} {n : Nat} {s t : State} (hn : n ≤ 15)
    (h : drawRows (originX s x) (originY s y) (List.range n) (s.setVF 0) = .ok t) :
    Toggled (spriteHits s x y n) (s.setVF 0) t := by
  refine (drawRows_toggled List.nodup_range (fun r hr => by have := List.mem_range.mp hr; omega) h).congr fun l => ?_
  simp only [spriteHits, spriteAt_eq, spritePlace_eq, List.mem_range]
  rfl

/-! ## The step -/

/-- A step on memory it can fetch from (R113). -/
theorem step_fetched {s : State} {w : Word} (hf : s.fault = none) (hw : fetchWord s = .ok w) :
    step s = match decode w with
      | .instr i => exec i s.advancePc
      | .reject _ => .next (s.advancePc.report ⟨w, s.pc⟩) := by
  cases hd : decode w <;> simp only [step, hf, hw, hd]

/-- The inversion lemma of `step`: a next state comes from executing the fetched instruction, or from reporting the
fetched word. -/
theorem step_next {s t : State} (h : step s = .next t) :
    s.fault = none ∧ ∃ w, fetchWord s = .ok w ∧
      ((∃ i, decode w = .instr i ∧ exec i s.advancePc = .next t) ∨
       (∃ e, decode w = .reject e ∧ t = s.advancePc.report ⟨w, s.pc⟩)) := by
  unfold step at h
  split at h
  · cases h
  · next hf =>
    split at h
    · cases h
    · next w hw =>
      refine ⟨hf, w, hw, ?_⟩
      split at h
      · next i hi => exact .inl ⟨i, hi, h⟩
      · next e he => exact .inr ⟨e, he, by injection h with h; exact h.symm⟩

end Sys2Proof.Machine
end

