-- ==== Sys2Proof/Laws/Host.lean ====
section
/-! SUPPORT. The end of a run (spec/40_dispatch.md R120): when each end is reached, and what a run does where none is. -/

namespace Sys2Proof.Machine

theorem isIdle_iff (s : State) : s.isIdle = true ↔ s.Idle := by
  unfold State.isIdle State.Idle
  cases fetchWord s <;> simp

theorem isIdle_false {s : State} (h : ¬ s.Idle) : s.isIdle = false := by
  rw [← isIdle_iff] at h
  simpa using h

theorem isPress_iff (op : HostOp) : op.isPress = true ↔ ∃ k : Int, 0 ≤ k ∧ k < 16 ∧ op = .keyEvent k true := by
  cases op <;> simp [HostOp.isPress, and_assoc]

theorem any_isPress (ops : List HostOp) : ops.any HostOp.isPress = false ↔ NoPressLeft ops := by
  rw [List.any_eq_false]
  constructor
  · intro h k h0 h1 hm
    exact h _ hm ((isPress_iff _).mpr ⟨k, h0, h1, rfl⟩)
  · intro h op hm hp
    obtain ⟨k, h0, h1, rfl⟩ := (isPress_iff op).mp hp
    exact h k h0 h1 hm

theorem runEnd_faulted {a : Session} {f : Fault} (ops : List HostOp) (h : a.core.fault = some f) :
    a.runEnd ops = some (.faulted f) := by
  simp only [Session.runEnd, faultOutput, h]

theorem runEnd_idle {a : Session} (ops : List HostOp) (hf : a.core.fault = none) (hl : a.loaded = true)
    (h : a.core.Idle) : a.runEnd ops = some .idle := by
  simp [Session.runEnd, faultOutput, hf, hl, (isIdle_iff _).mpr h]

theorem runEnd_waiting {a : Session} {ops : List HostOp} (hf : a.core.fault = none) (hl : a.loaded = true)
    (hi : ¬ a.core.Idle) (hw : a.core.wait = true) (hp : NoPressLeft ops) : a.runEnd ops = some .waiting := by
  simp [Session.runEnd, faultOutput, waitingOutput, hf, hl, isIdle_false hi, hw, (any_isPress ops).mpr hp]

/-- No end is reached before the load, nor while the core is not idle and either does not wait or has a press to come. -/
theorem runEnd_none {a : Session} {ops : List HostOp} (hf : a.core.fault = none)
    (h : a.loaded = false ∨ (¬ a.core.Idle ∧ (a.core.wait = false ∨ ¬ NoPressLeft ops))) : a.runEnd ops = none := by
  rcases h with hl | ⟨hi, hw | hp⟩
  · simp [Session.runEnd, faultOutput, hf, hl]
  · simp [Session.runEnd, faultOutput, waitingOutput, hf, isIdle_false hi, hw]
  · rw [← any_isPress, Bool.not_eq_false] at hp
    simp [Session.runEnd, faultOutput, waitingOutput, hf, isIdle_false hi, hp]

/-- A run ends where an end is reached, whatever is left to issue. -/
theorem run_ended {a : Session} {ops : List HostOp} {e : RunEnd} (h : a.runEnd ops = some e) :
    a.run ops = .ok (a, some e) := by
  cases ops with
  | nil => simp only [Session.run, h]
  | cons op rest => simp only [Session.run, h]

/-- A run goes on where no end is reached. -/
theorem run_next {a b : Session} {op : HostOp} {rest : List HostOp} {r : Reply} (h : a.runEnd (op :: rest) = none)
    (ht : a.transact op = .ok (b, r)) : a.run (op :: rest) = b.run rest := by
  simp only [Session.run, h, ht]

/-- A run is refused where its next operation is. -/
theorem run_refused {a : Session} {op : HostOp} {rest : List HostOp} {e : Refusal} (h : a.runEnd (op :: rest) = none)
    (ht : a.transact op = .error e) : a.run (op :: rest) = .error e := by
  simp only [Session.run, h, ht]

end Sys2Proof.Machine
end

