-- ==== Sys2Proof/Laws/PerInstr.lean ====
section
/-! SUPPORT. Statements made per instruction (LAWS.json): EncodeFamily, the top nibble of an instruction's word is its
opcode family (spec/30_encoding.md R82, R86). -/

namespace Sys2Proof

/-- The opcode family of an instruction (R86). -/
def opcodeFamily : Instr → BitVec 4
  | .cls => 0x0#4
  | .ret => 0x0#4
  | .jp _ => 0x1#4
  | .call _ => 0x2#4
  | .seImm _ _ => 0x3#4
  | .sneImm _ _ => 0x4#4
  | .seReg _ _ => 0x5#4
  | .ldImm _ _ => 0x6#4
  | .addImm _ _ => 0x7#4
  | .ldReg _ _ => 0x8#4
  | .orReg _ _ => 0x8#4
  | .andReg _ _ => 0x8#4
  | .xorReg _ _ => 0x8#4
  | .addReg _ _ => 0x8#4
  | .sub _ _ => 0x8#4
  | .shr _ _ => 0x8#4
  | .subn _ _ => 0x8#4
  | .shl _ _ => 0x8#4
  | .sneReg _ _ => 0x9#4
  | .ldI _ => 0xA#4
  | .jpV0 _ => 0xB#4
  | .rnd _ _ => 0xC#4
  | .drw _ _ _ => 0xD#4
  | .skp _ => 0xE#4
  | .sknp _ => 0xE#4
  | .ldXDt _ => 0xF#4
  | .ldXK _ => 0xF#4
  | .ldDtX _ => 0xF#4
  | .ldStX _ => 0xF#4
  | .addIX _ => 0xF#4
  | .ldFX _ => 0xF#4
  | .ldBX _ => 0xF#4
  | .stRegs _ => 0xF#4
  | .ldRegs _ => 0xF#4

end Sys2Proof

namespace Sys2Proof.Laws.EncodeFamily

/-- The top nibble of the word is the instruction's family. -/
def Statement (i : Instr) : Prop := fieldF (encode i) = opcodeFamily i

theorem cls : Statement (.cls) := by unfold Statement; decide
theorem ret : Statement (.ret) := by unfold Statement; decide
theorem jp (nnn : BitVec 12) : Statement (.jp nnn) := fieldF_encodeA _ _
theorem call (nnn : BitVec 12) : Statement (.call nnn) := fieldF_encodeA _ _
theorem seImm (x : Reg) (nn : Byte) : Statement (.seImm x nn) := fieldF_encodeXNN _ _ _
theorem sneImm (x : Reg) (nn : Byte) : Statement (.sneImm x nn) := fieldF_encodeXNN _ _ _
theorem seReg (x y : Reg) : Statement (.seReg x y) := fieldF_encodeXYN _ _ _ _
theorem ldImm (x : Reg) (nn : Byte) : Statement (.ldImm x nn) := fieldF_encodeXNN _ _ _
theorem addImm (x : Reg) (nn : Byte) : Statement (.addImm x nn) := fieldF_encodeXNN _ _ _
theorem ldReg (x y : Reg) : Statement (.ldReg x y) := fieldF_encodeXYN _ _ _ _
theorem orReg (x y : Reg) : Statement (.orReg x y) := fieldF_encodeXYN _ _ _ _
theorem andReg (x y : Reg) : Statement (.andReg x y) := fieldF_encodeXYN _ _ _ _
theorem xorReg (x y : Reg) : Statement (.xorReg x y) := fieldF_encodeXYN _ _ _ _
theorem addReg (x y : Reg) : Statement (.addReg x y) := fieldF_encodeXYN _ _ _ _
theorem sub (x y : Reg) : Statement (.sub x y) := fieldF_encodeXYN _ _ _ _
theorem shr (x y : Reg) : Statement (.shr x y) := fieldF_encodeXYN _ _ _ _
theorem subn (x y : Reg) : Statement (.subn x y) := fieldF_encodeXYN _ _ _ _
theorem shl (x y : Reg) : Statement (.shl x y) := fieldF_encodeXYN _ _ _ _
theorem sneReg (x y : Reg) : Statement (.sneReg x y) := fieldF_encodeXYN _ _ _ _
theorem ldI (nnn : BitVec 12) : Statement (.ldI nnn) := fieldF_encodeA _ _
theorem jpV0 (nnn : BitVec 12) : Statement (.jpV0 nnn) := fieldF_encodeA _ _
theorem rnd (x : Reg) (nn : Byte) : Statement (.rnd x nn) := fieldF_encodeXNN _ _ _
theorem drw (x y : Reg) (n : Nat) : Statement (.drw x y n) := fieldF_encodeXYN _ _ _ _
theorem skp (x : Reg) : Statement (.skp x) := fieldF_encodeXNN _ _ _
theorem sknp (x : Reg) : Statement (.sknp x) := fieldF_encodeXNN _ _ _
theorem ldXDt (x : Reg) : Statement (.ldXDt x) := fieldF_encodeXNN _ _ _
theorem ldXK (x : Reg) : Statement (.ldXK x) := fieldF_encodeXNN _ _ _
theorem ldDtX (x : Reg) : Statement (.ldDtX x) := fieldF_encodeXNN _ _ _
theorem ldStX (x : Reg) : Statement (.ldStX x) := fieldF_encodeXNN _ _ _
theorem addIX (x : Reg) : Statement (.addIX x) := fieldF_encodeXNN _ _ _
theorem ldFX (x : Reg) : Statement (.ldFX x) := fieldF_encodeXNN _ _ _
theorem ldBX (x : Reg) : Statement (.ldBX x) := fieldF_encodeXNN _ _ _
theorem stRegs (x : Reg) : Statement (.stRegs x) := fieldF_encodeXNN _ _ _
theorem ldRegs (x : Reg) : Statement (.ldRegs x) := fieldF_encodeXNN _ _ _

end Sys2Proof.Laws.EncodeFamily
end

