-- ==== Sys2Proof/Tests/Slice0.lean ====
section
/-! SUPPORT. Small tests and witnesses. An expected result marked T<n> or E<n> is the vector of that name in
spec/95_test_vectors.md; a word is written out from spec/30_encoding.md R82 and R85. A theorem `witness_<Name>` shows that
the hypotheses of the obligation `<Name>` can be met together, clause by clause, at boundary values. -/

namespace Sys2Proof.Tests

open Sys2Proof.Machine

-- the framebuffer is a number below 2 ^ 2048, and the tests compute with it
set_option exponentiation.threshold 3000

/-! ## Helpers -/

/-- The next state of an outcome, if it has one. -/
def nextOf : Host.Outcome State Fault Refusal → Option State
  | .next s => some s
  | .fault _ => none
  | .refused _ => none

/-- What is read of a next state is read of a next state. -/
theorem next_of_map {α : Type} {o : Host.Outcome State Fault Refusal} {f : State → α} {a : α}
    (h : (nextOf o).map f = some a) : ∃ t, o = .next t ∧ f t = a := by
  cases o with
  | next t => exact ⟨t, rfl, by injection h⟩
  | fault _ => cases h
  | refused _ => cases h

/-- The fault of an outcome, if it is one. -/
def faultOf : Host.Outcome State Fault Refusal → Option Fault
  | .next _ => none
  | .fault f => some f
  | .refused _ => none

/-- One step from `s` with the word `w` placed at its PC. -/
def stepOn (w : Nat) (s : State) : Host.Outcome State Fault Refusal := step (s.withFetchWord 16 w)

/-- What `f` reads of the state after that step. -/
def after {α : Type} (w : Nat) (s : State) (f : State → α) : Option α := (nextOf (stepOn w s)).map f

/-- The reset state with V[x] = a. -/
def with1 (x : Reg) (a : Byte) : State := State.reset.setV x a

/-- The reset state with V[x] = a and V[y] = b. -/
def with2 (x : Reg) (a : Byte) (y : Reg) (b : Byte) : State := (with1 x a).setV y b

/-- `s` with a byte in memory. -/
def State.poke (s : State) (a : Nat) (b : Byte) : State := s.setMem (s.mem.write a b)

/-- `s` with another `ALU_ORDER`. -/
def ordered (o : Config.AluOrder) (s : State) : State := { s with config := { s.config with aluOrder := o } }

/-- `s` with another `SHIFT_SRC`. -/
def shifting (c : Config.ShiftSrc) (s : State) : State := { s with config := { s.config with shiftSrc := c } }

/-- `s` with another `EDGE_MODE`. -/
def edged (m : Config.EdgeMode) (s : State) : State := { s with config := { s.config with edgeMode := m } }

/-- The framebuffer with exactly the pixels (x, y) of the list lit. -/
def lit (ps : List (Nat × Nat)) : BitVec 2048 := ps.foldl (fun f p => f ||| BitVec.twoPow 2048 (p.2 * 64 + p.1)) 0

/-! ## WellFormed: one check, and a term it refuses -/

theorem test_wf_drw_16_rows_refused : (Instr.drw 0 1 16).wellFormed = false := by decide
theorem test_wf_drw_15_rows : (Instr.drw 0 1 15).wellFormed = true := by decide

/-! ## Decoding: every constructor, from a word written out from R82 and R85 -/

theorem test_decode_cls : decode 0b0000000011100000 = .instr .cls := by decide
theorem test_decode_ret : decode 0b0000000011101110 = .instr .ret := by decide
theorem test_decode_jp : decode 0b0001101010111100 = .instr (.jp 0xABC) := by decide
theorem test_decode_call : decode 0b0010001000010000 = .instr (.call 0x210) := by decide
theorem test_decode_seImm : decode 0b0011001101010110 = .instr (.seImm 3 0x56) := by decide
theorem test_decode_sneImm : decode 0b0100110000000101 = .instr (.sneImm 12 0x05) := by decide
theorem test_decode_seReg : decode 0b0101000100100000 = .instr (.seReg 1 2) := by decide
theorem test_decode_seReg_low_nibble_ignored : decode 0b0101000100100011 = .instr (.seReg 1 2) := by decide
theorem test_decode_ldImm : decode 0b0110101000111100 = .instr (.ldImm 10 0x3C) := by decide
theorem test_decode_addImm : decode 0b0111111100000001 = .instr (.addImm 15 0x01) := by decide
theorem test_decode_ldReg : decode 0b1000001001010000 = .instr (.ldReg 2 5) := by decide
theorem test_decode_orReg : decode 0b1000001001010001 = .instr (.orReg 2 5) := by decide
theorem test_decode_andReg : decode 0b1000001001010010 = .instr (.andReg 2 5) := by decide
theorem test_decode_xorReg : decode 0b1000001001010011 = .instr (.xorReg 2 5) := by decide
theorem test_decode_addReg : decode 0b1000001001010100 = .instr (.addReg 2 5) := by decide
theorem test_decode_sub : decode 0b1000001001010101 = .instr (.sub 2 5) := by decide
theorem test_decode_shr : decode 0b1000001001010110 = .instr (.shr 2 5) := by decide
theorem test_decode_subn : decode 0b1000001001010111 = .instr (.subn 2 5) := by decide
theorem test_decode_shl : decode 0b1000001001011110 = .instr (.shl 2 5) := by decide
theorem test_decode_sneReg : decode 0b1001000100100000 = .instr (.sneReg 1 2) := by decide
theorem test_decode_ldI : decode 0b1010001100000001 = .instr (.ldI 0x301) := by decide
theorem test_decode_jpV0 : decode 0b1011111111111110 = .instr (.jpV0 0xFFE) := by decide
theorem test_decode_rnd : decode 0b1100000100001111 = .instr (.rnd 1 0x0F) := by decide
theorem test_decode_drw : decode 0b1101001101000101 = .instr (.drw 3 4 5) := by decide
theorem test_decode_skp : decode 0b1110011110011110 = .instr (.skp 7) := by decide
theorem test_decode_sknp : decode 0b1110011110100001 = .instr (.sknp 7) := by decide
theorem test_decode_ldXDt : decode 0b1111101100000111 = .instr (.ldXDt 11) := by decide
theorem test_decode_ldXK : decode 0b1111010100001010 = .instr (.ldXK 5) := by decide
theorem test_decode_ldDtX : decode 0b1111101000010101 = .instr (.ldDtX 10) := by decide
theorem test_decode_ldStX : decode 0b1111101000011000 = .instr (.ldStX 10) := by decide
theorem test_decode_addIX : decode 0b1111001000011110 = .instr (.addIX 2) := by decide
theorem test_decode_ldFX : decode 0b1111000100101001 = .instr (.ldFX 1) := by decide
theorem test_decode_ldBX : decode 0b1111001100110011 = .instr (.ldBX 3) := by decide
theorem test_decode_stRegs : decode 0b1111001101010101 = .instr (.stRegs 3) := by decide
theorem test_decode_ldRegs : decode 0b1111111101100101 = .instr (.ldRegs 15) := by decide
/-- T4 -/
theorem test_decode_01E0_rejected : decode 0x01E0 = .reject (.unknownSystem 0x01E0) := by decide
/-- T5 -/
theorem test_decode_E000_rejected : decode 0xE000 = .reject (.unknownKey 0xE000) := by decide
/-- T5 -/
theorem test_decode_F0FF_rejected : decode 0xF0FF = .reject (.unknownMisc 0xF0FF) := by decide
theorem test_decodeBytes_truncated : decodeBytes [0x00] = (.reject (.truncated 1), [0x00]) := by decide
theorem test_decodeTableWord : decodeTableWord 16 0x6A3C = some (.ldImm 10 0x3C) := by decide
theorem test_decodeTableWord_refused : decodeTableWord 16 0x8008 = none := by decide

/-! ## The step (spec/95 part 2.1) -/

/-- T2 -/
theorem test_step_report : after 0x8008 State.reset (fun s => (s.pc, s.events)) = some (0x202, [⟨0x8008, 0x200⟩]) := by
  decide
/-- T6 -/
theorem test_step_odd_pc : after 0x607F (State.reset.setPc 0x201) (fun s => (s.reg 0, s.pc)) = some (0x7F, 0x203) := by
  decide
/-- T8 -/
theorem test_step_pc_1000 : faultOf (step (State.reset.setPc 0x1000)) = some (.memOob 0x1000 .fetch (some 0x1000)) := by
  decide
/-- T9 -/
theorem test_step_pc_0FFF : faultOf (step (State.reset.setPc 0xFFF)) = some (.memOob 0x1000 .fetch (some 0xFFF)) := by
  decide

/-! ## Control transfer (part 2.2) -/

/-- T20 -/
theorem test_jp : after 0x1ABC State.reset (·.pc) = some 0xABC := by decide
/-- T21 -/
theorem test_call : after 0x2210 (State.reset.setPc 0x204) (fun s => (s.pc, s.sp, s.stack[0])) =
    some (0x210, 1, 0x206) := by decide
/-- T24 -/
theorem test_call_full : faultOf (stepOn 0x2300 { State.reset.setPc 0x250 with sp := 16 }) =
    some (.stackOverflow 0x250) := by decide
/-- T22 -/
theorem test_ret : after 0x00EE { State.reset with sp := 1, stack := State.reset.stack.set 0 0x206 }
    (fun s => (s.pc, s.sp, s.stack[0])) = some (0x206, 0, 0x206) := by decide
/-- T25 -/
theorem test_ret_empty : faultOf (stepOn 0x00EE State.reset) = some (.stackUnderflow 0x200) := by decide
/-- T26 -/
theorem test_seImm_skips : after 0x3303 ((with1 3 0x03).setPc 0x206) (·.pc) = some 0x20A := by decide
/-- T27 -/
theorem test_seImm_falls : after 0x3303 ((with1 3 0x02).setPc 0x206) (·.pc) = some 0x208 := by decide
/-- T28 -/
theorem test_sneImm_falls : after 0x4005 (with1 0 0x05) (·.pc) = some 0x202 := by decide
/-- T29 -/
theorem test_sneImm_skips : after 0x4005 (with1 0 0x06) (·.pc) = some 0x204 := by decide
/-- T30 -/
theorem test_seReg_same_register : after 0x5110 (with1 1 0x40) (·.pc) = some 0x204 := by decide
/-- T10 -/
theorem test_seReg_low_nibble : after 0x5123 (with2 1 0x09 2 0x09) (·.pc) = some 0x204 := by decide
/-- T31 -/
theorem test_sneReg_same_register : after 0x9110 (with1 1 0x40) (·.pc) = some 0x202 := by decide
/-- T32 -/
theorem test_sneReg_skips : after 0x9120 (with2 1 0x40 2 0x41) (·.pc) = some 0x204 := by decide
/-- T33 -/
theorem test_jpV0 : after 0xB300 (with1 0 0x10) (·.pc) = some 0x310 := by decide
/-- T34 -/
theorem test_jpV0_not_reduced : after 0xBFFF (with1 0 0xFF) (·.pc) = some 0x10FE := by decide

/-! ## Register loads and ALU (part 2.3) -/

/-- T40 -/
theorem test_ldImm : after 0x6A3C State.reset (·.reg 10) = some 0x3C := by decide
/-- T41 -/
theorem test_addImm_wraps : after 0x7001 (with1 0 0xFF) (fun s => (s.reg 0, s.reg 15)) = some (0x00, 0x00) := by decide
/-- T42 -/
theorem test_addImm_vf : after 0x7F01 (with1 15 0xFF) (·.reg 15) = some 0x00 := by decide
/-- T43 -/
theorem test_ldReg : after 0x8010 (with1 1 0x12) (fun s => (s.reg 0, s.reg 1)) = some (0x12, 0x12) := by decide
/-- T44 -/
theorem test_orReg : after 0x8011 (with2 0 0xF0 1 0x0F) (·.reg 0) = some 0xFF := by decide
/-- T45 -/
theorem test_andReg : after 0x8012 (with2 0 0xF0 1 0x3C) (·.reg 0) = some 0x30 := by decide
/-- T46 -/
theorem test_xorReg : after 0x8013 (with2 0 0xFF 1 0x0F) (·.reg 0) = some 0xF0 := by decide
/-- T48 -/
theorem test_addReg_carry : after 0x8014 (with2 0 0xFF 1 0x01) (fun s => (s.reg 0, s.reg 15)) = some (0x00, 1) := by decide
/-- T70, the three orders -/
theorem test_addReg_aliased :
    [Config.AluOrder.sequential, .snapshotFlagFirst, .snapshotFlagLast].map
      (fun o => after 0x8F14 (ordered o (with2 15 0xFF 1 0x02)) (·.reg 15)) = [some 0x03, some 0x01, some 0x01] := by decide
/-- T54 -/
theorem test_sub_borrow : after 0x8015 (with2 0 0x03 1 0x05) (fun s => (s.reg 0, s.reg 15)) = some (0xFE, 0) := by decide
/-- T79, the three orders -/
theorem test_sub_aliased :
    [Config.AluOrder.sequential, .snapshotFlagFirst, .snapshotFlagLast].map
      (fun o => after 0x80F5 (ordered o (with1 0 0x10)) (fun s => (s.reg 0, s.reg 15))) =
      [some (0x0F, 1), some (0x10, 1), some (0x10, 1)] := by decide
/-- T61 -/
theorem test_shr : after 0x8016 (with1 0 0x03) (fun s => (s.reg 0, s.reg 15)) = some (0x01, 1) := by decide
/-- T67 -/
theorem test_shr_vy : after 0x8016 (shifting .vy (with2 0 0x00 1 0x03)) (fun s => (s.reg 0, s.reg 15)) =
    some (0x01, 1) := by decide
/-- T57 -/
theorem test_subn : after 0x8017 (with2 0 0x03 1 0x05) (fun s => (s.reg 0, s.reg 15)) = some (0x02, 1) := by decide
/-- T74, the three orders -/
theorem test_subn_aliased :
    [Config.AluOrder.sequential, .snapshotFlagFirst, .snapshotFlagLast].map
      (fun o => after 0x8F17 (ordered o (with2 15 0x03 1 0x05)) (·.reg 15)) = [some 0x04, some 0x02, some 0x01] := by decide
/-- T64 -/
theorem test_shl : after 0x800E (with1 0 0x81) (fun s => (s.reg 0, s.reg 15)) = some (0x02, 1) := by decide
/-- T77, the three orders -/
theorem test_shl_aliased :
    [Config.AluOrder.sequential, .snapshotFlagFirst, .snapshotFlagLast].map
      (fun o => after 0x8F1E (ordered o (with1 15 0x81)) (·.reg 15)) = [some 0x02, some 0x02, some 0x01] := by decide
/-- T92: nn = 0, and the source has advanced by one draw -/
theorem test_rnd_zero_mask : (after 0xC000 State.reset (·.rngDraws)) = some 1 := by decide
/-- T91, T93: the draw itself, whatever byte it is -/
theorem test_rnd_full_mask : after 0xC0FF State.reset (·.reg 0) = some (Config.randomByte 0 0 &&& 0xFF) := rfl

/-! ## Index register and memory (part 2.4) -/

/-- T100 -/
theorem test_ldI : after 0xA300 State.reset (·.i) = some 0x300 := by decide
/-- T101 -/
theorem test_addIX : after 0xF21E ((with1 2 0x10).setI 0x300) (·.i) = some 0x310 := by decide
/-- T103 -/
theorem test_addIX_wraps : after 0xF01E ((with1 0 0x01).setI 0xFFFF) (fun s => (s.i, s.reg 15)) = some (0x0000, 0) := by
  decide
/-- T106 -/
theorem test_ldFX : after 0xF029 (with1 0 0x0A) (·.i) = some 0x082 := by decide
/-- T109 -/
theorem test_ldFX_not_masked : after 0xF029 (with1 0 0xFF) (·.i) = some 0x54B := by decide
/-- T115 -/
theorem test_ldBX : after 0xF033 ((with1 0 157).setI 0x300)
    (fun s => (s.mem.read 0x300, s.mem.read 0x301, s.mem.read 0x302)) = some (1, 5, 7) := by decide
/-- T117 -/
theorem test_ldBX_oob : faultOf (stepOn 0xF033 ((with1 0 0xFF).setI 0xFFE)) =
    some (.memOob 0x1000 .write (some 0x200)) := by decide
/-- T118 -/
theorem test_stRegs : after 0xF155 ((with2 0 0x01 1 0x02).setI 0x300)
    (fun s => (s.mem.read 0x300, s.mem.read 0x301, s.mem.read 0x302, s.i)) = some (0x01, 0x02, 0x00, 0x300) := by decide
/-- T121 -/
theorem test_stRegs_oob : faultOf (stepOn 0xF255 (State.reset.setI 0xFFE)) =
    some (.memOob 0x1000 .write (some 0x200)) := by decide
/-- T122 -/
theorem test_ldRegs : after 0xF265
    (State.poke (State.poke (State.poke ((with1 3 0x99).setI 0x300) 0x300 1) 0x301 5) 0x302 7)
    (fun s => (s.reg 0, s.reg 1, s.reg 2, s.reg 3)) = some (1, 5, 7, 0x99) := by decide
/-- T124 -/
theorem test_ldRegs_oob : faultOf (stepOn 0xF065 (State.reset.setI 0x1000)) =
    some (.memOob 0x1000 .read (some 0x200)) := by decide

/-! ## Display (part 2.5) -/

/-- The start of T131: I points to F0 90, V0 = 0x41, V1 = 0x22. -/
def spriteState : State := State.poke (State.poke ((with2 0 0x41 1 0x22).setI 0x300) 0x300 0xF0) 0x301 0x90

/-- The start of T137: I points to FF, V0 = 0x3E, V1 = 0. -/
def edgeState : State := State.poke ((with1 0 0x3E).setI 0x300) 0x300 0xFF

/-- T130 -/
theorem test_cls : after 0x00E0 { State.reset with fb := lit [(5, 5)] } (fun s => (s.fb, s.dirty)) = some (0, true) := by
  decide
/-- T131 -/
theorem test_drw : after 0xD012 spriteState (fun s => (s.fb, s.reg 15, s.dirty)) =
    some (lit [(1, 2), (2, 2), (3, 2), (4, 2), (1, 3), (4, 3)], 0, true) := by decide
/-- T137 to T140: the four edge modes -/
theorem test_drw_edges :
    after 0xD011 edgeState (·.fb) = some (lit [(62, 0), (63, 0), (0, 1), (1, 1), (2, 1), (3, 1), (4, 1), (5, 1)]) ∧
    faultOf (stepOn 0xD011 (edged .fault edgeState)) = some (.drawRange 64 0 0x200) ∧
    after 0xD011 (edged .clip edgeState) (·.fb) = some (lit [(62, 0), (63, 0)]) ∧
    after 0xD011 (edged .wrap edgeState) (·.fb) =
      some (lit [(0, 0), (1, 0), (2, 0), (3, 0), (4, 0), (5, 0), (62, 0), (63, 0)]) := by decide

/-! ## Keys, timers and the host (part 2.6, part 1) -/

/-- The reset state with key k pressed and V0 = k. -/
def keyState (k : Fin 16) : State := (with1 0 (BitVec.ofNat 8 k.val)).setKey k true

/-- T160 -/
theorem test_skp : after 0xE09E ((keyState 7).setPc 0x202) (·.pc) = some 0x206 := by decide
/-- T163 -/
theorem test_skp_range : faultOf (stepOn 0xE09E (with1 0 0x10)) = some (.keyRange 0x10 0x200) := by decide
/-- T162 -/
theorem test_sknp : after 0xE0A1 ((with1 0 7).setPc 0x202) (·.pc) = some 0x206 := by decide
/-- T164 -/
theorem test_sknp_range : faultOf (stepOn 0xE0A1 (with1 0 0xFF)) = some (.keyRange 0xFF 0x200) := by decide
/-- T165 -/
theorem test_ldXDt : after 0xFB07 (State.reset.setDt 57) (·.reg 11) = some 0x39 := by decide
/-- T166 -/
theorem test_ldDtX : after 0xFA15 (with1 10 0x3C) (fun s => (s.dt, s.st)) = some (60, 0) := by decide
/-- T167 -/
theorem test_ldStX : after 0xFA18 (with1 10 0x3C) (fun s => (s.dt, s.st)) = some (0, 60) := by decide
/-- T168 -/
theorem test_ldXK : after 0xF50A (with1 5 0x77) (fun s => (s.wait, s.waitReg, s.pc, s.reg 5)) =
    some (true, 5, 0x202, 0x77) := by decide
/-- T170 -/
theorem test_key_press : ((keyEvent 9 true (State.reset.startWait 5)).1.reg 5,
    (keyEvent 9 true (State.reset.startWait 5)).2) = (9, false) := by decide
/-- T172 -/
theorem test_key_out_of_range : keyEvent 16 true (State.reset.startWait 5) = (State.reset.startWait 5, true) := by decide
/-- E8 -/
theorem test_tick_floor : (tickTimers (State.reset.setDt 1)).dt = 0 ∧ tickTimers State.reset = State.reset := by decide
/-- E5 -/
theorem test_consume_frame : (consumeFrame (State.reset.setDirty true)).2 = (0, true) ∧
    (consumeFrame (consumeFrame (State.reset.setDirty true)).1).2 = (0, false) := by decide

/-! ## withFetchWord and Idle -/

theorem test_withFetchWord_at_the_last_word : (State.reset.setPc 0xFFE |>.withFetchWord 16 0x6A3C |> fetchWord) =
    .ok 0x6A3C := by rfl

/-! ## Witnesses: encoding and the step -/

/-- The reset state with the word w at PC. -/
def holding (w : Nat) : State := State.reset.withFetchWord 16 w

theorem witness_DecodeOfEncodeIsTheInstruction : (Instr.drw 15 15 15).wellFormed = true := by decide
theorem witness_DecodedWordIsTheEncoding :
    (decode 0x6A12 = .instr (.ldImm 10 0x12) ∧ fieldF 0x6A12 ≠ 0x5#4 ∧ fieldF 0x6A12 ≠ 0x9#4) ∧
    (decode 0x512F = .instr (.seReg 1 2) ∧ fieldF 0x512F = 0x5#4) ∧
    (decode 0x912F = .instr (.sneReg 1 2) ∧ fieldF 0x912F = 0x9#4) := by decide
theorem witness_UnrecognizedWordsAreTheTable :
    (fieldF 0x0000 = 0x0#4) ∧ fieldN 0x800F = 0xF ∧ fieldNN 0xE0A2 ∉ [0x9E#8, 0xA1#8] ∧
    decode 0xFF66 = .reject (.unknownMisc 0xFF66) := by decide
/-- The state whose PC is the last address a word fits at, holding 6A3C there. -/
def lastWord : State := (State.reset.setPc 0xFFE).withFetchWord 16 0x6A3C
theorem witness_StepRunsTheDecodedInstruction : lastWord.fault = none ∧ lastWord.pc.toNat + 1 < 0x1000 ∧
    decode (wordOfBytes (lastWord.mem.read lastWord.pc.toNat) (lastWord.mem.read (lastWord.pc.toNat + 1))) =
      .instr (.ldImm 10 0x3C) := by decide
/-- T7: empty memory at 0xFFE. -/
theorem witness_StepReportsAnUnrecognizedWord :
    (State.reset.setPc 0xFFE).fault = none ∧ (State.reset.setPc 0xFFE).pc.toNat + 1 < 0x1000 ∧
    (0x0000#16 : Word) = wordOfBytes ((State.reset.setPc 0xFFE).mem.read (State.reset.setPc 0xFFE).pc.toNat)
      ((State.reset.setPc 0xFFE).mem.read ((State.reset.setPc 0xFFE).pc.toNat + 1)) ∧
    decode 0x0000#16 = .reject (.unknownSystem 0x0000#16) := by decide
theorem witness_FetchIsBigEndianAndBounded :
    (State.reset.setPc 0xFFE).fault = none ∧ (State.reset.setPc 0xFFE).pc.toNat < 0xFFF ∧
    (State.reset.setPc 0x1000).fault = none ∧ 0x1000 ≤ (State.reset.setPc 0x1000).pc.toNat ∧
    (State.reset.setPc 0xFFF).fault = none ∧ (State.reset.setPc 0xFFF).pc.toNat = 0xFFF := by decide
theorem witness_PcAfterStepIsTheTable : (holding 0x6A3C).fault = none ∧ fetchWord (holding 0x6A3C) = .ok 0x6A3C ∧
    ∃ t, step (holding 0x6A3C) = .next t := ⟨rfl, rfl, _, rfl⟩
theorem witness_NothingIsRefusedWhileFaultIsNone : State.reset.fault = none := rfl
theorem witness_FaultsHaveTheCausesOfTheTable :
    faultOf (exec (.ldRegs 1) (State.reset.setI 0xFFF)) = some (.memOob 0x1000 .read (some 0x1FE)) ∧
    faultOf (exec (.drw 0 1 1) (State.reset.setI 0x1000)) = some (.memOob 0x1000 .read (some 0x1FE)) ∧
    faultOf (exec (.stRegs 15) (State.reset.setI 0xFF1)) = some (.memOob 0x1000 .write (some 0x1FE)) ∧
    faultOf (exec (.ldBX 0) (State.reset.setI 0xFFE)) = some (.memOob 0x1000 .write (some 0x1FE)) ∧
    faultOf (exec (.call 0x300) { State.reset with sp := 16 }) = some (.stackOverflow 0x1FE) ∧
    faultOf (exec .ret State.reset) = some (.stackUnderflow 0x1FE) ∧
    faultOf (exec (.skp 0) (with1 0 16)) = some (.keyRange 16 0x1FE) ∧
    faultOf (exec (.sknp 0) (with1 0 0xFF)) = some (.keyRange 0xFF 0x1FE) ∧
    faultOf (exec (.drw 0 1 1) (edged .fault edgeState)) = some (.drawRange 64 0 0x1FE) := by decide

/-! ## Witnesses: invariants and rules over all instructions -/

/-- BFFF with V0 = FF leaves the highest PC, 0x10FE. -/
theorem witness_StepKeepsTheInvariant : ((with1 0 0xFF).withFetchWord 16 0xBFFF).Inv ∧
    ∃ t, step ((with1 0 0xFF).withFetchWord 16 0xBFFF) = .next t ∧ t.pc = 0x10FE := ⟨by decide, _, rfl, rfl⟩
/-- A loaded session whose core is at reset. -/
def session : Session := ⟨State.reset, true, false⟩
theorem witness_TransactionKeepsTheInvariant : session.core.Inv ∧
    ∃ b r, session.transact .tickTimers = .ok (b, r) ∧ b.core.fault = none := ⟨by decide, _, _, rfl, rfl⟩
theorem witness_RegistersWrittenAreTheTable : ∃ t, exec (.addReg 0 1) State.reset = .next t := ⟨_, rfl⟩
theorem witness_OnlyTheStoresWriteMemory : (∀ x, Instr.ldI 0x300 ≠ .ldBX x) ∧ (∀ x, Instr.ldI 0x300 ≠ .stRegs x) ∧
    ∃ t, exec (.ldI 0x300) State.reset = .next t :=
  ⟨(fun x h => by cases h), (fun x h => by cases h), _, rfl⟩
theorem witness_OnlyCallAndRetTouchTheStack :
    (∀ nnn, Instr.ret ≠ .call nnn) ∧ (∃ t, exec .ret { State.reset with sp := 16 } = .next t) ∧
    Instr.call 0x300 ≠ .ret ∧ (∃ t, exec (.call 0x300) { State.reset with sp := 15 } = .next t) ∧
    (∃ f, exec (.call 0x300) { State.reset with sp := 16 } = .fault f) :=
  ⟨(fun nnn h => by cases h), ⟨_, rfl⟩, (fun h => by cases h), ⟨_, rfl⟩, _, rfl⟩
theorem witness_EveryFieldHasItsOwnWriters :
    (∃ t, exec (.addIX 0) (with1 0 1) = .next t ∧ t.i ≠ (with1 0 1).i) ∧
    (∃ t, exec .cls State.reset = .next t) ∧ (∃ t, exec (.drw 0 1 0) State.reset = .next t) ∧
    (∃ t, exec (.rnd 0 0) State.reset = .next t) :=
  ⟨⟨_, rfl, by decide⟩, ⟨_, rfl⟩, ⟨_, rfl⟩, _, rfl⟩
/-- A loaded session whose core holds the word w and V[0] = 5. -/
def sessionOn (w : Nat) : Session := ⟨(with1 0 5).withFetchWord 16 w, true, false⟩
theorem witness_TimersChangeOnlyByTickOrTheirInstruction :
    (∃ b r, (sessionOn 0xF015).transact .step = .ok (b, r) ∧ b.core.fault = none ∧
      b.core.dt ≠ (sessionOn 0xF015).core.dt) ∧
    (∃ b r, (sessionOn 0xF018).transact .step = .ok (b, r) ∧ b.core.fault = none ∧
      b.core.st ≠ (sessionOn 0xF018).core.st) ∧
    (∃ b r, Session.transact .tickTimers ⟨(State.reset.setDt 1).setSt 1, true, false⟩ = .ok (b, r) ∧
      b.core.fault = none ∧ b.core.dt ≠ 1 ∧ b.core.st ≠ 1) :=
  ⟨⟨_, _, rfl, rfl, by decide⟩, ⟨_, _, rfl, rfl, by decide⟩, ⟨_, _, rfl, rfl, by decide, by decide⟩⟩
theorem witness_KeyWaitIsEnteredByFx0AAndLeftByAPress :
    (∃ b r, (sessionOn 0xFF0A).transact .step = .ok (b, r) ∧ b.core.fault = none ∧
      (sessionOn 0xFF0A).core.wait = false ∧ b.core.wait = true) ∧
    (∃ b r, Session.transact (.keyEvent 15 true) ⟨State.reset.startWait 5, true, true⟩ = .ok (b, r) ∧
      b.core.fault = none ∧ (State.reset.startWait 5).wait = true ∧ b.core.wait = false) :=
  ⟨⟨_, _, rfl, rfl, rfl, rfl⟩, ⟨_, _, rfl, rfl, rfl, rfl⟩⟩
theorem witness_NoInstructionReadsTheHostsOutputs :
    (∃ f, exec .ret State.reset = .fault f) ∧ ∃ t, exec (.ldStX 0) State.reset = .next t := ⟨⟨_, rfl⟩, _, rfl⟩

/-! ## Witnesses: control transfer -/

theorem witness_JumpGoesToItsAddress :
    fieldF 0x1FFF = 0x1#4 ∧
    ((holding 0x1200).fault = none ∧ fetchWord (holding 0x1200) = .ok 0x1200 ∧
      decode 0x1200 = .instr (.jp 0x200) ∧ (0x200#12).toNat = (holding 0x1200).pc.toNat) ∧
    ∃ t, exec (.jp 0xFFF) State.reset = .next t := ⟨by decide, ⟨rfl, rfl, by decide, rfl⟩, _, rfl⟩
theorem not_idle_reset : ¬ State.reset.Idle := fun ⟨w, hw, hf, _⟩ => by
  injection (show Except.ok (0x0000#16 : Word) = Except.ok (ε := Fault) w from hw) with hw
  subst hw
  exact absurd hf (by decide)
/-- Idle; faulted; waiting with a tick left; waiting with a press left; not loaded. -/
theorem witness_IdleCoreStaysAsItIs :
    ((holding 0x1200).fault = none ∧ (holding 0x1200).Idle) ∧
    (∃ f, (State.reset.halt (.stackUnderflow 0x200)).fault = some f) ∧
    (¬ (State.reset.startWait 0).Idle ∧ (State.reset.startWait 0).wait = true ∧
      NoPressLeft [.tickTimers, .keyEvent 15 false, .keyEvent 16 true]) ∧
    ¬ NoPressLeft [.tickTimers, .keyEvent 15 true] ∧
    (¬ State.reset.Idle ∧ State.reset.wait = false ∧ (⟨State.reset, false, false⟩ : Session).loaded = false) ∧
    (∃ e, session.transact (.load []) = .error e) ∧ ∃ b r, session.transact .tickTimers = .ok (b, r) :=
  ⟨⟨rfl, 0x1200, rfl, by decide, rfl⟩, ⟨_, rfl⟩, ⟨not_idle_reset, rfl, (any_isPress _).mp (by decide)⟩,
    (fun h => h 15 (by decide) (by decide) (by decide)), ⟨not_idle_reset, rfl, rfl⟩, ⟨_, rfl⟩, _, _, rfl⟩
theorem witness_CallPushesTheAdvancedPc :
    ({ State.reset with sp := 15 } : State).sp.val < 16 ∧ ({ State.reset with sp := 16 } : State).sp.val = 16 := by decide
theorem witness_ReturnPopsIntoPc :
    ({ State.reset with sp := 1 } : State).sp.val = (0 : Fin 16).val + 1 ∧
    ({ State.reset with sp := 16 } : State).sp.val = (15 : Fin 16).val + 1 ∧ State.reset.sp.val = 0 := by decide
/-- After a call from SP = 0, a state with the same SP and slot 0, another slot 1 (a deeper call's) and another PC. -/
theorem witness_ReturnComesBackAfterTheCall :
    ({ State.reset with sp := 15 } : State).sp.val = (15 : Fin 16).val ∧ State.reset.sp.val = (0 : Fin 16).val ∧
    ∃ t, exec (.call 0x300) State.reset = .next t ∧ ∃ t' : State, t'.sp = t.sp ∧ t'.stack[0] = t.stack[0] ∧
      t'.stack ≠ t.stack ∧ t'.pc ≠ t.pc :=
  ⟨by decide, by decide, _, rfl, { State.reset with sp := 1, stack := (State.reset.stack.set 0 0x200).set 1 0x302 },
    rfl, rfl, by decide, by decide⟩
theorem witness_ImmediateSkipsCompareVx : fieldF 0x3FFF = 0x3#4 ∧ fieldF 0x4000 = 0x4#4 := by decide
theorem witness_RegisterSkipsCompareVxWithVy : fieldF 0x5FFF = 0x5#4 ∧ fieldF 0x9001 = 0x9#4 := by decide
/-- 0xFFF + 0 is the least target that faults. -/
theorem witness_IndexedJumpAddsV0 : State.reset.fault = none ∧
    ∃ t, exec (.jpV0 0xFFF) State.reset = .next t ∧ 0xFFF ≤ t.pc.toNat := ⟨rfl, _, rfl, by decide⟩

/-! ## Witnesses: register loads and the ALU -/

theorem witness_ImmediateLoadAndAdd : fieldF 0x6FFF = 0x6#4 ∧ fieldF 0x7FFF = 0x7#4 := by decide
theorem witness_AssignAndLogicOperations : fieldF 0x8FF0 = 0x8#4 ∧ fieldN 0x8FF0 = 0 ∧ fieldN 0x8FF1 = 1 ∧
    fieldN 0x8FF2 = 2 ∧ fieldN 0x8FF3 = 3 := by decide
theorem witness_AddAndSubtractObeyTheirLaws : (14 : Reg) ≠ 15 ∧ (0 : Reg) ≠ 15 := by decide
theorem witness_ShiftsMoveOneBitOut :
    ((0 : Reg) = (if State.reset.config.shiftSrc = .vx then 0 else 14) ∧ (0 : Reg) ≠ 15) ∧
    ((14 : Reg) = (if (shifting .vy State.reset).config.shiftSrc = .vx then 0 else 14) ∧ (14 : Reg) ≠ 15) := by decide
/-- VF = FF and V[14] = 1: the carry c is 1, V[15] >= V[14], and V[14] >= V[15] fails. -/
theorem witness_AliasedOperationsUnderSequential :
    (with2 15 0xFF 14 1).config.aluOrder = .sequential ∧ (14 : Reg) ≠ 15 ∧
    (1 : Nat) = (if ((with2 15 0xFF 14 1).reg 15).toNat + ((with2 15 0xFF 14 1).reg 14).toNat > 255 then 1 else 0) ∧
    (1 : Int) = (if ((with2 15 0xFF 14 1).reg 15).toNat ≥ ((with2 15 0xFF 14 1).reg 14).toNat then 1 else 0) ∧
    (0 : Int) = (if ((with2 15 0xFF 14 1).reg 14).toNat ≥ ((with2 15 0xFF 14 1).reg 15).toNat then 1 else 0) ∧
    (with2 15 0xFF 14 1).config.shiftSrc = .vx := by decide
theorem witness_AliasedOperationsUnderSnapshots :
    ((ordered .snapshotFlagFirst State.reset).config.aluOrder ≠ .sequential ∧
      (15 : Reg) = (if (ordered .snapshotFlagFirst State.reset).config.shiftSrc = .vx then 15 else 3)) ∧
    ((ordered .snapshotFlagLast (shifting .vy State.reset)).config.aluOrder ≠ .sequential ∧
      (3 : Reg) = (if (ordered .snapshotFlagLast (shifting .vy State.reset)).config.shiftSrc = .vx then 15 else 3)) ∧
    (14 : Reg) ≠ 15 := by decide
theorem witness_ShiftsThatNameTheFlagRegister :
    ((shifting .vy State.reset).config.shiftSrc = .vy ∧ (14 : Reg) ≠ 15) ∧
    ((shifting .vy State.reset).config.aluOrder = .sequential ∧
      (14 : Reg) = (if (shifting .vy State.reset).config.shiftSrc = .vx then 15 else 14)) ∧
    (State.reset.config.aluOrder = .sequential ∧
      (15 : Reg) = (if State.reset.config.shiftSrc = .vx then 15 else 14)) := by decide
theorem witness_FlagOperationsAlwaysComplete :
    Instr.shl 15 15 ∈ [Instr.addReg 15 15, .sub 15 15, .subn 15 15, .shr 15 15, .shl 15 15] ∧ (14 : Reg) ≠ 15 := by decide
theorem witness_RandomByteIsMasked : fieldF 0xC0FF = 0xC#4 ∧ 7 < 8 ∧ (0x7F#8).getLsbD 7 = false := by decide

/-! ## Witnesses: index register and memory -/

theorem witness_LoadIndexTakesAnyAddress : fieldF 0xAFFF = 0xA#4 := by decide
theorem witness_DecimalDigitsAreStored :
    fieldF 0xFF33 = 0xF#4 ∧ fieldNN 0xFF33 = 0x33#8 ∧
    ((State.reset.setI 0xFFD).mem.wf = true ∧ (State.reset.setI 0xFFD).i.toNat + 2 < 0x1000) ∧
    ((State.reset.setI 0xFFE).mem.wf = true ∧ 0x1000 ≤ (State.reset.setI 0xFFE).i.toNat + 2) := by decide
theorem witness_RegistersAreStoredFromTheIndex :
    ((State.reset.setI 0xFF0).mem.wf = true ∧ (State.reset.setI 0xFF0).i.toNat + (15 : Reg).val < 0x1000) ∧
    ((State.reset.setI 0xFF1).mem.wf = true ∧ 0x1000 ≤ (State.reset.setI 0xFF1).i.toNat + (15 : Reg).val) := by decide
theorem witness_RegistersAreLoadedFromTheIndex :
    (State.reset.setI 0xFFF).i.toNat + (0 : Reg).val < 0x1000 ∧
    0x1000 ≤ (State.reset.setI 0x1000).i.toNat + (0 : Reg).val := by decide
theorem witness_StoreThenLoadGivesTheRegistersBack :
    (State.reset.setI 0xFF0).mem.wf = true ∧ (State.reset.setI 0xFF0).i.toNat + (15 : Reg).val < 0x1000 ∧
    ∃ t, exec (.stRegs 15) (State.reset.setI 0xFF0) = .next t ∧ t.i = (State.reset.setI 0xFF0).i := ⟨rfl, by decide, _, rfl, rfl⟩

/-! ## Witnesses: display -/

/-- Fifteen rows that end at the last byte of memory, wrapped round both edges, can be drawn. -/
theorem drawable_fifteen_rows :
    drawable (edged .wrap ((with2 0 0x3F 1 0x1F).setI 0xFF1)) 0 1 15 := by
  unfold drawable rowDrawable
  decide
theorem drawable_spriteState : drawable spriteState 0 1 2 := by
  unfold drawable rowDrawable
  decide
/-- The first pixel of the sprite of T131 is unlit at first, and lit in the second start. -/
theorem witness_DrawTogglesExactlyTheSpritesPixels :
    (15 ≤ 15 ∧ drawable (edged .wrap ((with2 0 0x3F 1 0x1F).setI 0xFF1)) 0 1 15) ∧
    (2 ≤ 15 ∧ drawable spriteState 0 1 2) ∧
    (spriteHits spriteState 0 1 2 129 ∧ spriteState.pixel 129 = false) ∧
    (spriteHits { spriteState with fb := lit [(1, 2)] } 0 1 2 129 ∧
      ({ spriteState with fb := lit [(1, 2)] } : State).pixel 129 = true) :=
  ⟨⟨by decide, drawable_fifteen_rows⟩, ⟨by decide, drawable_spriteState⟩,
    ⟨⟨0, by decide, 0, by decide, by decide, by decide⟩, by decide⟩,
    ⟨0, by decide, 0, by decide, by decide, by decide⟩, by decide⟩
/-- The start of T141 with the sprite row FF at the bottom row, and the row below it. -/
def bottomState : State := State.poke (State.poke ((with1 1 0x1F).setI 0x300) 0x300 0xFF) 0x301 0x81
/-- Row 1 outside memory; and T141, whose second row is placed outside the buffer. -/
theorem witness_DrawFaultsAtTheFirstCondition :
    (1 < 2 ∧ (∀ q < 1, rowDrawable (State.reset.setI 0xFFF) 0 1 q 8) ∧ 0x1000 ≤ (State.reset.setI 0xFFF).i.toNat + 1) ∧
    (1 < 2 ∧ (∀ q < 1, rowDrawable bottomState 0 1 q 8) ∧ rowDrawable bottomState 0 1 1 0 ∧
      spriteAt bottomState 1 0 = true ∧ spritePlace bottomState 0 1 1 0 = .outside) := by
  unfold rowDrawable
  decide
theorem witness_DrawingTwiceCancels : 2 ≤ 15 ∧ ∃ t, exec (.drw 0 1 2) spriteState = .next t ∧
    (t.reg 0).toNat % 64 = (spriteState.reg 0).toNat % 64 ∧ (t.reg 1).toNat % 32 = (spriteState.reg 1).toNat % 32 := by
  obtain ⟨t, h, e⟩ := next_of_map (o := exec (.drw 0 1 2) spriteState)
    (f := fun t => ((t.reg 0).toNat % 64, (t.reg 1).toNat % 32))
    (a := ((spriteState.reg 0).toNat % 64, (spriteState.reg 1).toNat % 32)) (by decide)
  injection e with ex ey
  exact ⟨by decide, t, h, ex, ey⟩

/-! ## Witnesses: keys, timers, host operations -/

theorem witness_KeySkipsReadTheKey :
    ((with1 0 0).reg 0).toNat = (0 : Fin 16).val ∧ ((with1 0 15).reg 0).toNat = (15 : Fin 16).val ∧
    16 ≤ ((with1 0 16).reg 0).toNat ∧ 16 ≤ ((with1 0 255).reg 0).toNat := by decide
theorem witness_TimerInstructionsCopyTheTimers : fieldF 0xFF07 = 0xF#4 ∧ fieldNN 0xFF07 = 0x07#8 ∧
    fieldNN 0xFF15 = 0x15#8 ∧ fieldNN 0xFF18 = 0x18#8 := by decide
theorem witness_KeyPressResolvesTheWait :
    (State.reset.startWait 15).wait = true ∧ State.reset.wait = false ∧ ((-1 : Int) < 0) ∧ (16 : Int) ≤ 16 := by decide
theorem witness_ClearedFrameIsDirtyExactlyOnce : ∃ t, exec .cls State.reset = .next t := ⟨_, rfl⟩
theorem witness_LoadCopiesTheImage : State.reset.mem.wf = true ∧ (List.replicate 3584 (0x12 : Byte)).length ≤ 3584 ∧
    3584 < (List.replicate 3585 (0x12 : Byte)).length := ⟨rfl, Nat.le_of_eq List.length_replicate, by rw [List.length_replicate]; omega⟩
theorem witness_ConstructFillsMemory : 15 < 16 ∧ 4 < 5 ∧ (0x4F < 0x1000 ∧ (0x4F < 0x50 ∨ 0xA0 ≤ 0x4F)) ∧
    (0xFFF < 0x1000 ∧ (0xFFF < 0x50 ∨ 0xA0 ≤ 0xFFF)) := by decide
theorem witness_SessionStepSurfacesFaultsAndReports :
    (sessionOn 0x00EE).loaded = true ∧ (sessionOn 0x00EE).core.fault = none ∧
    (∃ f, step (sessionOn 0x00EE).core = .fault f) ∧
    (∃ t, fetchWord (sessionOn 0x8008).core = .ok 0x8008 ∧ step (sessionOn 0x8008).core = .next t) :=
  ⟨rfl, rfl, ⟨_, rfl⟩, _, rfl, rfl⟩
theorem witness_OperationsOutsideTheSpecAreRefused :
    (State.reset.halt (.stackUnderflow 0x200)).fault = some (.stackUnderflow 0x200) ∧
    HostOp.step ≠ .readOutputs ∧ session.core.fault = none ∧ session.loaded = true ∧
    (⟨State.reset, false, false⟩ : Session).loaded = false ∧ (⟨State.reset, false, true⟩ : Session).stepped = true := by
  decide

end Sys2Proof.Tests
end

section
/-! PROOFS. Jumps and the immediate skips (spec/41_control_transfer.md R134 to R136), and the step lemmas they need: a step
that executes a decoded instruction, and a step whose fetch leaves memory. -/

namespace Sys2Proof.Machine

/-! ## The step by what the fetch gives (R113) -/

/-- A step that fetches an instruction executes it in the advanced state. -/
theorem step_eq_exec {s : State} {w : Word} {i : Instr} (hf : s.fault = none) (hw : fetchWord s = .ok w)
    (hd : decode w = .instr i) : step s = exec i s.advancePc := by
  simp only [step_fetched hf hw, hd]

/-- A step whose fetch reaches past memory faults at the first address outside (R56). -/
theorem step_fetch_oob {s : State} (hf : s.fault = none) (h : 4096 ≤ s.pc.toNat + 1) :
    step s = .fault (.memOob (max s.pc.toNat 4096) .fetch (some s.pc)) := by
  simp only [step, hf, fetchWord_oob s h]

/-! ## Setting PC -/

/-- Setting PC back to where the fetch found it undoes the advance. -/
theorem advancePc_setPc_self {s : State} {a : Word} (h : a = s.pc) : s.advancePc.setPc a = s := by
  subst h
  rfl

theorem skipIf_decide (s : State) (p : Prop) [Decidable p] :
    s.skipIf (decide p) = if p then { s with pc := s.pc + 2 } else s := by
  by_cases hp : p
  · rw [if_pos hp, decide_eq_true hp]
    rfl
  · rw [if_neg hp, decide_eq_false hp]
    rfl

/-! ## Decoding families 0x1, 0x3 and 0x4 (R85) -/

theorem decode_family1 {w : Word} (h : fieldF w = 0x1#4) : decode w = .instr (.jp (fieldNNN w)) := by
  rw [decode, h]
  rfl

theorem decode_family3 {w : Word} (h : fieldF w = 0x3#4) : decode w = .instr (.seImm (fieldX w) (fieldNN w)) := by
  rw [decode, h]
  rfl

theorem decode_family4 {w : Word} (h : fieldF w = 0x4#4) : decode w = .instr (.sneImm (fieldX w) (fieldNN w)) := by
  rw [decode, h]
  rfl

/-! ## JP nnn (R134) -/

theorem exec_jp (nnn : BitVec 12) (s : State) : exec (.jp nnn) s = .next (s.setPc (zextAddr nnn)) := rfl

/-- A jump to its own address is a fixed point of the step. -/
theorem step_selfJump {s : State} {w : Word} {nnn : BitVec 12} (hf : s.fault = none) (hw : fetchWord s = .ok w)
    (hd : decode w = .instr (.jp nnn)) (ha : nnn.toNat = s.pc.toNat) : step s = .next s := by
  have target : zextAddr nnn = s.pc := BitVec.eq_of_toNat_eq (by rw [zextAddr_toNat, ha])
  rw [step_eq_exec hf hw hd, exec_jp, advancePc_setPc_self target]

/-- The fetch after a jump to 0xFFF would need the byte at 0x1000. -/
theorem step_after_jp_last {s t : State} (hf : s.fault = none) (h : exec (.jp 0xFFF#12) s = .next t) :
    step t = .fault (.memOob 4096 .fetch (some t.pc)) := by
  obtain rfl : t = s.setPc (zextAddr 0xFFF#12) := exec_effect h
  have target : (s.setPc (zextAddr 0xFFF#12)).pc.toNat = 4095 := zextAddr_toNat 0xFFF#12
  have oob := step_fetch_oob (s := s.setPc (zextAddr 0xFFF#12)) hf (by omega)
  rwa [target] at oob

/-- Settles O21: the arm of JP writes PC alone, so the self-jump undoes the advance of the fetch, and the fetch at 0xFFF
is out of bounds. -/
theorem jumpGoesToItsAddress : Obligations.JumpGoesToItsAddress := by
  unfold Obligations.JumpGoesToItsAddress
  refine ⟨fun w h => decode_family1 h, fun nnn s => ?_, fun s w nnn hf hw hd ha => step_selfJump hf hw hd ha,
    fun s t hf h => ⟨_, step_after_jp_last hf h⟩⟩
  exact ⟨s.setPc (zextAddr nnn), exec_jp nnn s, zextAddr_toNat nnn, rfl⟩

/-! ## SE Vx, nn and SNE Vx, nn (R135, R136) -/

theorem exec_seImm (x : Reg) (nn : Byte) (s : State) :
    exec (.seImm x nn) s = .next (s.skipIf (decide (s.reg x = nn))) := rfl

theorem exec_sneImm (x : Reg) (nn : Byte) (s : State) :
    exec (.sneImm x nn) s = .next (s.skipIf (decide (s.reg x ≠ nn))) := rfl

/-- Settles O26: both arms are a `skipIf` on the comparison, SNE's with the branches swapped. -/
theorem immediateSkipsCompareVx : Obligations.ImmediateSkipsCompareVx := by
  unfold Obligations.ImmediateSkipsCompareVx
  refine ⟨fun w h => decode_family3 h, fun w h => decode_family4 h, fun x nn s => ⟨?_, ?_⟩⟩
  · rw [exec_seImm, skipIf_decide]
  · rw [exec_sneImm, skipIf_decide, ite_not]

end Sys2Proof.Machine
end

section
/-! PROOFS. The immediate load and add (spec/42_register_alu.md R150, R151), and the frame of a register write. -/

namespace Sys2Proof.Machine

/-! ## The frame of a register write -/

/-- Writing one register is within the frame of an instruction that writes that register only. -/
theorem setV_onlyRegs (s : State) (x : Reg) (b : Byte) : OnlyRegs [x] s (s.setV x b) := by
  refine ⟨fun r hr => ?_, fun _ => rfl, rfl⟩
  have other : x ≠ r := fun h => hr (List.mem_singleton.mpr h.symm)
  exact setV_reg_other s x b r other

/-! ## Decoding families 0x6 and 0x7 (R85) -/

theorem decode_family6 {w : Word} (h : fieldF w = 0x6#4) : decode w = .instr (.ldImm (fieldX w) (fieldNN w)) := by
  rw [decode, h]
  rfl

theorem decode_family7 {w : Word} (h : fieldF w = 0x7#4) : decode w = .instr (.addImm (fieldX w) (fieldNN w)) := by
  rw [decode, h]
  rfl

/-! ## LD Vx, nn and ADD Vx, nn (R150, R151) -/

theorem exec_ldImm (x : Reg) (nn : Byte) (s : State) : exec (.ldImm x nn) s = .next (s.setV x nn) := rfl

theorem exec_addImm (x : Reg) (nn : Byte) (s : State) :
    exec (.addImm x nn) s = .next (s.setV x (s.reg x + nn)) := rfl

/-- Settles O29: both arms are one register write, of `nn` and of the byte sum, which wraps mod 2^8. -/
theorem immediateLoadAndAdd : Obligations.ImmediateLoadAndAdd := by
  unfold Obligations.ImmediateLoadAndAdd
  refine ⟨fun w h => decode_family6 h, fun w h => decode_family7 h, fun x nn s => ⟨?_, ?_⟩⟩
  · exact ⟨_, exec_ldImm x nn s, setV_reg_same s x nn, setV_onlyRegs s x nn⟩
  · have sum : ((s.setV x (s.reg x + nn)).reg x).toNat = ((s.reg x).toNat + nn.toNat) % 256 := by
      rw [setV_reg_same, BitVec.toNat_add]
    exact ⟨_, exec_addImm x nn s, sum, setV_onlyRegs s x _⟩

end Sys2Proof.Machine
end

section
/-! PROOFS. The index load and the decimal store (spec/43_index_memory.md R180, R183), and what a run of writes leaves as it
was. -/

namespace Sys2Proof.Machine

/-! ## Decoding families 0xA and 0xF (R85) -/

theorem decode_familyA {w : Word} (h : fieldF w = 0xA#4) : decode w = .instr (.ldI (fieldNNN w)) := by
  rw [decode, h]
  rfl

/-- Family 0xF is selected by nn. -/
theorem decode_familyF {w : Word} (h : fieldF w = 0xF#4) : decode w = decodeMisc w := by
  rw [decode, h]
  rfl

theorem decodeMisc_ldBX {w : Word} (h : fieldNN w = 0x33#8) : decodeMisc w = .instr (.ldBX (fieldX w)) := by
  rw [decodeMisc, h]
  rfl

/-! ## LD I, nnn (R180) -/

theorem exec_ldI (nnn : BitVec 12) (s : State) : exec (.ldI nnn) s = .next (s.setI (zextAddr nnn)) := rfl

/-- Settles O37: the arm of Annn writes I alone, and extending nnn with zeros keeps its value. -/
theorem loadIndexTakesAnyAddress : Obligations.LoadIndexTakesAnyAddress := by
  unfold Obligations.LoadIndexTakesAnyAddress
  exact ⟨fun w h => decode_familyA h, fun nnn s => ⟨_, exec_ldI nnn s, zextAddr_toNat nnn, rfl⟩⟩

/-! ## Runs of writes and the decimal digits -/

/-- A run of writes leaves every byte outside the bytes it stores. -/
theorem setMem_writeAll_sameMemoryOutside (bs : List Byte) (a : Nat) (s : State) :
    SameMemoryOutside a bs.length s (s.setMem (Memory.writeAll bs a s.mem)) :=
  fun c hc => Memory.read_writeAll_other bs a c s.mem hc

@[simp] theorem decimalDigits_length (b : Byte) : (decimalDigits b).length = 3 := rfl

/-- The digits fit their bytes: a byte divided or reduced is still below 256. -/
theorem decimalDigits_toNat (b : Byte) :
    (decimalDigits b).map BitVec.toNat = [b.toNat / 100, b.toNat / 10 % 10, b.toNat % 10] := by
  have hb : b.toNat < 256 := b.isLt
  simp only [decimalDigits, List.map_cons, List.map_nil, BitVec.toNat_ofNat, List.cons.injEq, and_true]
  omega

/-! ## LD B, Vx (R183) -/

theorem exec_ldBX_ok (x : Reg) {s : State} (h : s.i.toNat + 2 < 4096) :
    exec (.ldBX x) s = .next (s.setMem (Memory.writeAll (decimalDigits (s.reg x)) s.i.toNat s.mem)) :=
  execLdBX_ok x s h

/-- The digits do not all fit below 0x1000: the first address past memory faults. -/
theorem exec_ldBX_oob (x : Reg) {s : State} (h : 4096 ≤ s.i.toNat + 2) :
    exec (.ldBX x) s = .fault (.memOob (max s.i.toNat 4096) .write (some s.pcFetch)) := by
  have stopped := storeBytes_oob (some s.pcFetch) (decimalDigits (s.reg x)) s.i.toNat s (List.cons_ne_nil _ _)
    (by rw [decimalDigits_length]; omega)
  exact congrArg complete stopped

/-- The k-th digit stored is read back at I + k. -/
theorem read_writeAll_decimalDigits (b : Byte) {a : Nat} {m : Memory} (hm : m.wf = true) (h : a + 2 < 4096)
    (k : Fin 3) :
    ((Memory.writeAll (decimalDigits b) a m).read (a + k)).toNat =
      [b.toNat / 100, b.toNat / 10 % 10, b.toNat % 10][k] := by
  have inside : a + (decimalDigits b).length ≤ 4096 := by rw [decimalDigits_length]; omega
  rw [Memory.read_writeAll_inside (decimalDigits b) a hm inside k k.isLt]
  simp only [← decimalDigits_toNat b]
  exact (List.getElem_map BitVec.toNat).symm

/-- Settles O39: Fx33 is one run of writes of the three digits from I on, so each digit is read back where it was stored,
the other bytes are outside the run, and a run that leaves memory faults at its first address outside. -/
theorem decimalDigitsAreStored : Obligations.DecimalDigitsAreStored := by
  unfold Obligations.DecimalDigitsAreStored
  refine ⟨fun w hf hn => (decode_familyF hf).trans (decodeMisc_ldBX hn), fun x s hm => ⟨fun h => ?_, exec_ldBX_oob x⟩⟩
  have digit := read_writeAll_decimalDigits (s.reg x) hm h
  have frame := setMem_writeAll_sameMemoryOutside (decimalDigits (s.reg x)) s.i.toNat s
  exact ⟨_, exec_ldBX_ok x h, digit 0, digit 1, digit 2, frame, rfl⟩

end Sys2Proof.Machine
end

section
/-! PROOFS. The timer instructions (spec/45_timers_keys.md R232, R235, R236). -/

namespace Sys2Proof.Machine

/-! ## Decoding the timer selectors of family 0xF (R85) -/

theorem decodeMisc_ldXDt {w : Word} (h : fieldNN w = 0x07#8) : decodeMisc w = .instr (.ldXDt (fieldX w)) := by
  rw [decodeMisc, h]
  rfl

theorem decodeMisc_ldDtX {w : Word} (h : fieldNN w = 0x15#8) : decodeMisc w = .instr (.ldDtX (fieldX w)) := by
  rw [decodeMisc, h]
  rfl

theorem decodeMisc_ldStX {w : Word} (h : fieldNN w = 0x18#8) : decodeMisc w = .instr (.ldStX (fieldX w)) := by
  rw [decodeMisc, h]
  rfl

/-! ## LD Vx, DT; LD DT, Vx and LD ST, Vx (R232, R235, R236) -/

theorem exec_ldXDt (x : Reg) (s : State) : exec (.ldXDt x) s = .next (s.setV x s.dt) := rfl

theorem exec_ldDtX (x : Reg) (s : State) : exec (.ldDtX x) s = .next (s.setDt (s.reg x)) := rfl

theorem exec_ldStX (x : Reg) (s : State) : exec (.ldStX x) s = .next (s.setSt (s.reg x)) := rfl

/-- Settles O48: Fx07 is one register write, of DT; Fx15 and Fx18 are one write of a timer, of V[x]. -/
theorem timerInstructionsCopyTheTimers : Obligations.TimerInstructionsCopyTheTimers := by
  unfold Obligations.TimerInstructionsCopyTheTimers
  refine ⟨fun w hf => ?_, fun x s => ?_⟩
  · rw [decode_familyF hf]
    exact ⟨decodeMisc_ldXDt, decodeMisc_ldDtX, decodeMisc_ldStX⟩
  · have load : ∃ t, exec (.ldXDt x) s = .next t ∧ t.reg x = s.dt ∧ OnlyRegs [x] s t :=
      ⟨_, exec_ldXDt x s, setV_reg_same s x s.dt, setV_onlyRegs s x s.dt⟩
    exact ⟨load, exec_ldDtX x s, exec_ldStX x s⟩

end Sys2Proof.Machine
end

section
/-! PROOFS. The timer tick (R262) and a key release (R266), and what a key event in range answers (R265). -/

namespace Sys2Proof.Machine

/-! ## The tick (R262) -/

/-- The byte decrement the tick makes, guarded against the wrap at zero, is the truncated subtraction of `Nat`. -/
theorem flooredDecrement_toNat (b : Byte) : (if b = 0 then b else b - 1).toNat = b.toNat - 1 := by
  by_cases hb : b = 0
  · subst hb
    rfl
  · rw [if_neg hb]
    have pos : b.toNat ≠ 0 := fun h => hb (BitVec.eq_of_toNat_eq h)
    have one_le : (1 : Byte) ≤ b := BitVec.le_def.mpr (Nat.one_le_iff_ne_zero.mpr pos)
    exact BitVec.toNat_sub_of_le one_le

@[simp] theorem tickTimers_dt_toNat (s : State) : (tickTimers s).dt.toNat = s.dt.toNat - 1 :=
  flooredDecrement_toNat s.dt

@[simp] theorem tickTimers_st_toNat (s : State) : (tickTimers s).st.toNat = s.st.toNat - 1 :=
  flooredDecrement_toNat s.st

theorem tickTimers_frame (s : State) :
    tickTimers s = { s with dt := (tickTimers s).dt, st := (tickTimers s).st } := rfl

/-- Settles O50: the tick is one write of each timer, of its own value less one, floored at zero. -/
theorem tickDecrementsBothTimers : Obligations.TickDecrementsBothTimers := by
  unfold Obligations.TickDecrementsBothTimers
  exact fun s => ⟨tickTimers_dt_toNat s, tickTimers_st_toNat s, tickTimers_frame s⟩

/-! ## Key events (R265, R266) -/

/-- The call answers the state after the event of that key, and its WAIT. -/
theorem keyEvent_inRange (k : Fin 16) (pressed : Bool) (s : State) :
    keyEvent k.val pressed s = (keyEventInRange k pressed s, (keyEventInRange k pressed s).wait) := by
  have inRange : (0 : Int) ≤ k.val ∧ (k.val : Int) < 16 := by omega
  rw [keyEvent, dif_pos inRange]
  rfl

theorem keyEventInRange_release (k : Fin 16) (s : State) : keyEventInRange k false s = s.setKey k false := rfl

/-- Settles O52: a release takes the branch that only records the key, which leaves WAIT as it was. -/
theorem keyReleaseDoesNotResolveTheWait : Obligations.KeyReleaseDoesNotResolveTheWait := by
  unfold Obligations.KeyReleaseDoesNotResolveTheWait
  intro k s
  rw [keyEvent_inRange, keyEventInRange_release, setKey_wait]
  rfl

end Sys2Proof.Machine
end

section
/-! PROOFS. The decoder by family and by selector (spec/30_encoding.md R85), decoding against encoding in both directions
(R82, R89), and the unrecognized words (R87). -/

namespace Sys2Proof.Machine

/-! ## The families not decoded above -/

theorem decode_family0 {w : Word} (h : fieldF w = 0x0#4) : decode w = decodeSystem w := by
  rw [decode, h]
  rfl

theorem decode_family2 {w : Word} (h : fieldF w = 0x2#4) : decode w = .instr (.call (fieldNNN w)) := by
  rw [decode, h]
  rfl

theorem decode_family5 {w : Word} (h : fieldF w = 0x5#4) : decode w = .instr (.seReg (fieldX w) (fieldY w)) := by
  rw [decode, h]
  rfl

theorem decode_family8 {w : Word} (h : fieldF w = 0x8#4) : decode w = decodeAlu w := by
  rw [decode, h]
  rfl

theorem decode_family9 {w : Word} (h : fieldF w = 0x9#4) : decode w = .instr (.sneReg (fieldX w) (fieldY w)) := by
  rw [decode, h]
  rfl

theorem decode_familyB {w : Word} (h : fieldF w = 0xB#4) : decode w = .instr (.jpV0 (fieldNNN w)) := by
  rw [decode, h]
  rfl

theorem decode_familyC {w : Word} (h : fieldF w = 0xC#4) : decode w = .instr (.rnd (fieldX w) (fieldNN w)) := by
  rw [decode, h]
  rfl

theorem decode_familyD {w : Word} (h : fieldF w = 0xD#4) :
    decode w = .instr (.drw (fieldX w) (fieldY w) (fieldN w)) := by
  rw [decode, h]
  rfl

theorem decode_familyE {w : Word} (h : fieldF w = 0xE#4) : decode w = decodeKey w := by
  rw [decode, h]
  rfl

/-! ## The selectors of families 0x8, 0xE and 0xF -/

theorem aluOpOf_aluSelector (op : AluOp) : aluOpOf (aluSelector op).toNat = some op := by
  cases op <;> rfl

theorem decodeAlu_selector {w : Word} {op : AluOp} (h : fieldN w = (aluSelector op).toNat) :
    decodeAlu w = .instr (op.instr (fieldX w) (fieldY w)) := by
  rw [decodeAlu, h, aluOpOf_aluSelector]

/-- The word that format XY writes for a family-8 operation decodes to it. -/
theorem decode_encodeAlu (op : AluOp) (x y : Reg) :
    decode (encodeXYN 0x8#4 x y (aluSelector op)) = .instr (op.instr x y) := by
  rw [decode_family8 (fieldF_encodeXYN _ x y _), decodeAlu_selector (fieldN_encodeXYN _ x y _), fieldX_encodeXYN,
    fieldY_encodeXYN]

/-- A selector that names an operation is the selector of that operation. -/
theorem toNat_aluSelector_of_aluOpOf {n : Nat} {op : AluOp} (h : aluOpOf n = some op) : (aluSelector op).toNat = n := by
  obtain ⟨row, found, rfl⟩ := Option.map_eq_some_iff.mp h
  have hn : row.1 = n := by simpa using List.find?_some found
  have listed : ∀ row ∈ aluSelectors, (aluSelector row.2).toNat = row.1 := by decide
  rw [listed row (List.mem_of_find?_eq_some found), hn]

theorem decodeMisc_ldXK {w : Word} (h : fieldNN w = 0x0A#8) : decodeMisc w = .instr (.ldXK (fieldX w)) := by
  rw [decodeMisc, h]
  rfl

theorem decodeMisc_addIX {w : Word} (h : fieldNN w = 0x1E#8) : decodeMisc w = .instr (.addIX (fieldX w)) := by
  rw [decodeMisc, h]
  rfl

theorem decodeMisc_ldFX {w : Word} (h : fieldNN w = 0x29#8) : decodeMisc w = .instr (.ldFX (fieldX w)) := by
  rw [decodeMisc, h]
  rfl

theorem decodeMisc_stRegs {w : Word} (h : fieldNN w = 0x55#8) : decodeMisc w = .instr (.stRegs (fieldX w)) := by
  rw [decodeMisc, h]
  rfl

theorem decodeMisc_ldRegs {w : Word} (h : fieldNN w = 0x65#8) : decodeMisc w = .instr (.ldRegs (fieldX w)) := by
  rw [decodeMisc, h]
  rfl

theorem decodeKey_skp {w : Word} (h : fieldNN w = 0x9E#8) : decodeKey w = .instr (.skp (fieldX w)) := by
  rw [decodeKey, h]
  rfl

theorem decodeKey_sknp {w : Word} (h : fieldNN w = 0xA1#8) : decodeKey w = .instr (.sknp (fieldX w)) := by
  rw [decodeKey, h]
  rfl

/-! ## Decode of encode (R82, R85) -/

/-- Each case decodes by the family, and where there is one the selector, that its format wrote, and reads the operands
back from the fields. -/
theorem decode_encode (i : Instr) (h : i.wellFormed = true) : decode (encode i) = .instr i := by
  cases i with
  | cls => rfl
  | ret => rfl
  | jp nnn => simp [encode, decode_family1]
  | call nnn => simp [encode, decode_family2]
  | seImm x nn => simp [encode, decode_family3]
  | sneImm x nn => simp [encode, decode_family4]
  | seReg x y => simp [encode, decode_family5]
  | ldImm x nn => simp [encode, decode_family6]
  | addImm x nn => simp [encode, decode_family7]
  | ldReg x y => exact decode_encodeAlu .assign x y
  | orReg x y => exact decode_encodeAlu .or x y
  | andReg x y => exact decode_encodeAlu .and x y
  | xorReg x y => exact decode_encodeAlu .xor x y
  | addReg x y => exact decode_encodeAlu .add x y
  | sub x y => exact decode_encodeAlu .sub x y
  | shr x y => exact decode_encodeAlu .shr x y
  | subn x y => exact decode_encodeAlu .subn x y
  | shl x y => exact decode_encodeAlu .shl x y
  | sneReg x y => simp [encode, decode_family9]
  | ldI nnn => simp [encode, decode_familyA]
  | jpV0 nnn => simp [encode, decode_familyB]
  | rnd x nn => simp [encode, decode_familyC]
  | drw x y n =>
    have rows : n ≤ 15 := of_decide_eq_true h
    simp [encode, decode_familyD, Nat.mod_eq_of_lt (show n < 16 by omega)]
  | skp x => simp [encode, decode_familyE, decodeKey_skp]
  | sknp x => simp [encode, decode_familyE, decodeKey_sknp]
  | ldXDt x => simp [encode, decode_familyF, decodeMisc_ldXDt]
  | ldXK x => simp [encode, decode_familyF, decodeMisc_ldXK]
  | ldDtX x => simp [encode, decode_familyF, decodeMisc_ldDtX]
  | ldStX x => simp [encode, decode_familyF, decodeMisc_ldStX]
  | addIX x => simp [encode, decode_familyF, decodeMisc_addIX]
  | ldFX x => simp [encode, decode_familyF, decodeMisc_ldFX]
  | ldBX x => simp [encode, decode_familyF, decodeMisc_ldBX]
  | stRegs x => simp [encode, decode_familyF, decodeMisc_stRegs]
  | ldRegs x => simp [encode, decode_familyF, decodeMisc_ldRegs]

/-- Settles O2: the bytes of a word put together again are the word, so both claims are `decode_encode`. -/
theorem decodeOfEncodeIsTheInstruction : Obligations.DecodeOfEncodeIsTheInstruction := by
  unfold Obligations.DecodeOfEncodeIsTheInstruction
  intro i h
  refine ⟨decode_encode i h, ?_⟩
  rw [encodeBytes, decodeBytes, wordOfBytes_high_low, decode_encode i h]

end Sys2Proof.Machine
end

section
/-! PROOFS. What each instruction may write, said once (`overlay`), and the rules over all instructions derived from
it: the invariant, the tables of spec/10_state.md R22 and R25, and the writers of every field. -/

namespace Sys2Proof.Machine

/-! ## The fields an instruction may write -/

/-- `s` with the fields that the instruction may write taken from `t`; a field it sets to one value has that value. -/
def overlay (i : Instr) (s t : State) : State :=
  match i with
  | .cls => { s with fb := t.fb, dirty := true }
  | .ret => { s with pc := t.pc, sp := t.sp }
  | .jp _ => { s with pc := t.pc }
  | .call _ => { s with pc := t.pc, sp := t.sp, stack := t.stack }
  | .seImm _ _ => { s with pc := t.pc }
  | .sneImm _ _ => { s with pc := t.pc }
  | .seReg _ _ => { s with pc := t.pc }
  | .ldImm _ _ => { s with v := t.v }
  | .addImm _ _ => { s with v := t.v }
  | .ldReg _ _ => { s with v := t.v }
  | .orReg _ _ => { s with v := t.v }
  | .andReg _ _ => { s with v := t.v }
  | .xorReg _ _ => { s with v := t.v }
  | .addReg _ _ => { s with v := t.v }
  | .sub _ _ => { s with v := t.v }
  | .shr _ _ => { s with v := t.v }
  | .subn _ _ => { s with v := t.v }
  | .shl _ _ => { s with v := t.v }
  | .sneReg _ _ => { s with pc := t.pc }
  | .ldI _ => { s with i := t.i }
  | .jpV0 _ => { s with pc := t.pc }
  | .rnd _ _ => { s with v := t.v, rngDraws := s.rngDraws + 1 }
  | .drw _ _ _ => { s with v := t.v, fb := t.fb, dirty := true }
  | .skp _ => { s with pc := t.pc }
  | .sknp _ => { s with pc := t.pc }
  | .ldXDt _ => { s with v := t.v }
  | .ldXK x => { s with wait := true, waitReg := x }
  | .ldDtX x => { s with dt := s.reg x }
  | .ldStX x => { s with st := s.reg x }
  | .addIX _ => { s with i := t.i }
  | .ldFX _ => { s with i := t.i }
  | .ldBX _ => { s with mem := t.mem }
  | .stRegs _ => { s with mem := t.mem }
  | .ldRegs _ => { s with v := t.v }

/-- A skip is within the frame of PC. -/
theorem eq_of_skipIf {s t : State} {i : Instr} (h : ∃ c, skipCondition s i = some c ∧ t = s.skipIf c) :
    t = { s with pc := t.pc } := by
  obtain ⟨c, -, rfl⟩ := h
  rw [skipIf_eq]
  rfl

/-- The flag sequence is within the frame of the registers. -/
theorem eq_of_flagThenResult {s t : State} {x : Reg} (h : ∃ c f, t = flagThenResult s x c f) :
    t = { s with v := t.v } := by
  obtain ⟨c, f, rfl⟩ := h
  exact flagThenResult_eq s x c f

/-- The frame of `exec`: a next state differs from the state before in the fields the instruction may write only. -/
theorem exec_overlay {i : Instr} {s t : State} (h : exec i s = .next t) : t = overlay i s t := by
  have e := exec_effect h
  cases i with
  | ret => obtain ⟨_, rfl⟩ := e; rfl
  | call nnn => obtain ⟨_, rfl⟩ := e; rfl
  | seImm x nn => exact eq_of_skipIf e
  | sneImm x nn => exact eq_of_skipIf e
  | seReg x y => exact eq_of_skipIf e
  | sneReg x y => exact eq_of_skipIf e
  | skp x => exact eq_of_skipIf e
  | sknp x => exact eq_of_skipIf e
  | addReg x y => exact eq_of_flagThenResult e
  | sub x y => exact eq_of_flagThenResult e
  | shr x y => exact eq_of_flagThenResult e
  | subn x y => exact eq_of_flagThenResult e
  | shl x y => exact eq_of_flagThenResult e
  | ldImm x nn => obtain ⟨_, rfl⟩ := e; rfl
  | addImm x nn => obtain ⟨_, rfl⟩ := e; rfl
  | ldReg x y => obtain ⟨_, rfl⟩ := e; rfl
  | orReg x y => obtain ⟨_, rfl⟩ := e; rfl
  | andReg x y => obtain ⟨_, rfl⟩ := e; rfl
  | xorReg x y => obtain ⟨_, rfl⟩ := e; rfl
  | rnd x nn => obtain ⟨_, rfl⟩ := e; rfl
  | drw x y n => obtain ⟨_, _, rfl⟩ := e; rfl
  | ldBX x => obtain ⟨_, rfl⟩ := e; rfl
  | stRegs x => obtain ⟨_, rfl⟩ := e; rfl
  | ldRegs x => obtain ⟨rfl, _⟩ := e; rfl
  | _ => subst e; rfl

/-! ## The writers of each field -/

section
variable {i : Instr} {s t : State}

/-- The fields that no instruction writes (R33, R116, R290). -/
theorem exec_unwritten (h : exec i s = .next t) :
    t.rngSeed = s.rngSeed ∧ t.config = s.config ∧ t.keys = s.keys ∧ t.fault = s.fault ∧ t.events = s.events := by
  rw [exec_overlay h]
  cases i <;> exact ⟨rfl, rfl, rfl, rfl, rfl⟩

theorem exec_mem (h : exec i s = .next t) (ldBX : ∀ x, i ≠ .ldBX x) (stRegs : ∀ x, i ≠ .stRegs x) : t.mem = s.mem := by
  rw [exec_overlay h]
  cases i with
  | ldBX x => exact absurd rfl (ldBX x)
  | stRegs x => exact absurd rfl (stRegs x)
  | _ => rfl

theorem exec_stack (h : exec i s = .next t) (call : ∀ nnn, i ≠ .call nnn) : t.stack = s.stack := by
  rw [exec_overlay h]
  cases i with
  | call nnn => exact absurd rfl (call nnn)
  | _ => rfl

theorem exec_sp (h : exec i s = .next t) (call : ∀ nnn, i ≠ .call nnn) (ret : i ≠ .ret) : t.sp = s.sp := by
  rw [exec_overlay h]
  cases i with
  | call nnn => exact absurd rfl (call nnn)
  | ret => exact absurd rfl ret
  | _ => rfl

theorem exec_i (h : exec i s = .next t) (ldI : ∀ nnn, i ≠ .ldI nnn) (addIX : ∀ x, i ≠ .addIX x)
    (ldFX : ∀ x, i ≠ .ldFX x) : t.i = s.i := by
  rw [exec_overlay h]
  cases i with
  | ldI nnn => exact absurd rfl (ldI nnn)
  | addIX x => exact absurd rfl (addIX x)
  | ldFX x => exact absurd rfl (ldFX x)
  | _ => rfl

theorem exec_fb_dirty (h : exec i s = .next t) (cls : i ≠ .cls) (drw : ∀ x y n, i ≠ .drw x y n) :
    t.fb = s.fb ∧ t.dirty = s.dirty := by
  rw [exec_overlay h]
  cases i with
  | cls => exact absurd rfl cls
  | drw x y n => exact absurd rfl (drw x y n)
  | _ => exact ⟨rfl, rfl⟩

theorem exec_rngDraws (h : exec i s = .next t) (rnd : ∀ x nn, i ≠ .rnd x nn) : t.rngDraws = s.rngDraws := by
  rw [exec_overlay h]
  cases i with
  | rnd x nn => exact absurd rfl (rnd x nn)
  | _ => rfl

theorem exec_dt (h : exec i s = .next t) (ldDtX : ∀ x, i ≠ .ldDtX x) : t.dt = s.dt := by
  rw [exec_overlay h]
  cases i with
  | ldDtX x => exact absurd rfl (ldDtX x)
  | _ => rfl

theorem exec_st (h : exec i s = .next t) (ldStX : ∀ x, i ≠ .ldStX x) : t.st = s.st := by
  rw [exec_overlay h]
  cases i with
  | ldStX x => exact absurd rfl (ldStX x)
  | _ => rfl

theorem exec_wait (h : exec i s = .next t) (ldXK : ∀ x, i ≠ .ldXK x) : t.wait = s.wait := by
  rw [exec_overlay h]
  cases i with
  | ldXK x => exact absurd rfl (ldXK x)
  | _ => rfl

end

/-! ## PC after a step (R25) -/

theorem skipCondition_advancePc (s : State) (i : Instr) : skipCondition s.advancePc i = skipCondition s i := by
  cases i <;> rfl

/-- A skip adds 2 to the advanced PC when its condition holds, which does not depend on PC. -/
theorem pc_of_skipIf {i : Instr} {s t : State} (hb : s.pc.toNat + 1 < 4096)
    (h : ∃ c, skipCondition s.advancePc i = some c ∧ t = s.advancePc.skipIf c) :
    t.pc.toNat = if skipCondition s i = some true then s.pc.toNat + 4 else s.pc.toNat + 2 := by
  obtain ⟨c, hc, rfl⟩ := h
  rw [skipCondition_advancePc] at hc
  have advanced := advancePc_toNat s hb
  cases c with
  | false => rw [hc]; exact advanced
  | true =>
    rw [hc, skipIf_eq, setPc_pc, if_pos rfl, if_pos rfl, BitVec.toNat_add, advanced]
    show (s.pc.toNat + 2 + 2) % 65536 = s.pc.toNat + 4
    omega

theorem exec_advanced_pc {i : Instr} {s t : State} (hb : s.pc.toNat + 1 < 4096) (h : exec i s.advancePc = .next t) :
    t.pc.toNat = pcAfter s (.instr i) := by
  have e := exec_effect h
  cases i with
  | jp nnn => subst e; exact zextAddr_toNat nnn
  | call nnn => obtain ⟨_, rfl⟩ := e; exact zextAddr_toNat nnn
  | jpV0 nnn => subst e; exact indexedTarget_toNat s.advancePc nnn
  | ret =>
    obtain ⟨_, rfl⟩ := e
    have := s.sp.isLt
    simp [pcAfter, show s.sp.val - 1 < 16 by omega]
  | seImm x nn => exact pc_of_skipIf hb e
  | sneImm x nn => exact pc_of_skipIf hb e
  | seReg x y => exact pc_of_skipIf hb e
  | sneReg x y => exact pc_of_skipIf hb e
  | skp x => exact pc_of_skipIf hb e
  | sknp x => exact pc_of_skipIf hb e
  | _ => rw [exec_overlay h]; exact advancePc_toNat s hb

theorem step_pc {s t : State} {w : Word} (hw : fetchWord s = .ok w) (h : step s = .next t) :
    t.pc.toNat = pcAfter s (decode w) := by
  have hb := fetchWord_bound hw
  obtain ⟨-, w', hw', ⟨i, hd, he⟩ | ⟨e, hd, rfl⟩⟩ := step_next h
  · obtain rfl : w = w' := Except.ok.inj (hw.symm.trans hw')
    rw [hd]
    exact exec_advanced_pc hb he
  · obtain rfl : w = w' := Except.ok.inj (hw.symm.trans hw')
    rw [hd]
    exact advancePc_toNat s hb

/-- Settles O8: the effect of the decoded instruction fixes PC, and the fetch bound rules out a wrap of the advance. -/
theorem pcAfterStepIsTheTable : Obligations.PcAfterStepIsTheTable := by
  unfold Obligations.PcAfterStepIsTheTable
  exact fun s t w _ hw h => step_pc hw h

/-! ## The invariant -/

/-- The highest PC of the table of R25 is the highest target of Bnnn (R26). -/
theorem pcAfter_le {s : State} (hb : s.pc.toNat + 1 < 4096) (hs : ∀ k : Fin 16, s.stack[k.val].toNat ≤ 0x1000)
    (d : Decoded) : pcAfter s d ≤ 0x10FE := by
  unfold pcAfter
  split
  · next nnn => have := nnn.isLt; omega
  · next nnn => have := nnn.isLt; omega
  · have slot : s.sp.val - 1 < 16 := by have := s.sp.isLt; omega
    have bound : s.stack[s.sp.val - 1].toNat ≤ 0x1000 := hs ⟨s.sp.val - 1, slot⟩
    simp [slot]
    omega
  · next nnn => have := nnn.isLt; have := (s.reg 0).isLt; omega
  · split <;> omega
  · omega

/-- The stores write inside memory, and the other instructions write none of it. -/
theorem exec_mem_wf {i : Instr} {s t : State} (h : exec i s = .next t) (hm : s.mem.wf = true) : t.mem.wf = true := by
  have e := exec_effect h
  cases i with
  | ldBX x => obtain ⟨hb, rfl⟩ := e; exact Memory.writeAll_wf _ _ hm hb
  | stRegs x => obtain ⟨hb, rfl⟩ := e; exact Memory.writeAll_wf _ _ hm hb
  | _ => rw [exec_mem h nofun nofun]; exact hm

/-- A call pushes PC, and no other instruction writes a slot. -/
theorem exec_stack_le {i : Instr} {s t : State} {n : Nat} (h : exec i s = .next t) (hp : s.pc.toNat ≤ n)
    (hs : ∀ k : Fin 16, s.stack[k.val].toNat ≤ n) (k : Fin 16) : t.stack[k.val].toNat ≤ n := by
  have e := exec_effect h
  cases i with
  | call nnn =>
    obtain ⟨_, rfl⟩ := e
    rw [Vector.getElem_set]
    split
    · exact hp
    · exact hs k
  | _ => rw [exec_stack h nofun]; exact hs k

theorem step_inv {s t : State} (hi : s.Inv) (h : step s = .next t) : t.Inv := by
  obtain ⟨hm, -, hs, hf⟩ := hi
  obtain ⟨-, w, hw, run⟩ := step_next h
  have hb := fetchWord_bound hw
  have pc : t.pc.toNat ≤ 0x10FE := step_pc hw h ▸ pcAfter_le hb hs (decode w)
  obtain ⟨i, -, he⟩ | ⟨e, -, rfl⟩ := run
  · have advanced : s.advancePc.pc.toNat ≤ 0x1000 := by rw [advancePc_toNat s hb]; omega
    obtain ⟨-, -, -, fault, -⟩ := exec_unwritten he
    exact ⟨exec_mem_wf he hm, pc, exec_stack_le he advanced hs, fault.trans hf⟩
  · exact ⟨hm, pc, hs, hf⟩

/-- Settles O12: PC is bounded by the table of R25, a call pushes an advanced PC, the stores keep memory canonical, and no
instruction writes FAULT. -/
theorem stepKeepsTheInvariant : Obligations.StepKeepsTheInvariant := by
  unfold Obligations.StepKeepsTheInvariant
  exact fun s t => step_inv

/-! ## The tables of writers (R22, R23, R27, R31 to R33, R51) -/

/-- Settles O15: no other instruction writes the field `mem`. -/
theorem onlyTheStoresWriteMemory : Obligations.OnlyTheStoresWriteMemory := by
  unfold Obligations.OnlyTheStoresWriteMemory
  intro i s t ldBX stRegs h a
  rw [exec_mem h ldBX stRegs]

theorem setV_sameRegs {s t : State} {x : Reg} (h : ∃ b, t = s.setV x b) : SameRegsExcept [x] s t := by
  obtain ⟨b, rfl⟩ := h
  obtain ⟨same, -⟩ := setV_onlyRegs s x b
  exact same

theorem flagThenResult_sameRegs {s t : State} {x : Reg} (h : ∃ c f, t = flagThenResult s x c f) :
    SameRegsExcept [flagReg, x] s t := by
  obtain ⟨c, f, rfl⟩ := h
  intro r hr
  obtain ⟨flag, result⟩ : r ≠ flagReg ∧ r ≠ x := by simpa using hr
  exact flagThenResult_other s x c f r result.symm flag.symm

/-- A load of `n` bytes writes no register numbered `n` or above. -/
theorem loadRegs_reg_above {s : State} {bytes : List Byte} {r : Reg} (h : bytes.length ≤ r.val) :
    (loadRegs s bytes).reg r = s.reg r := by
  rw [loadRegs_reg, List.getD_eq_default _ _ h]

/-- A state with the same register file has the same registers. -/
theorem sameRegs_of_v {s t : State} (xs : List Reg) (h : t.v = s.v) : SameRegsExcept xs s t := by
  intro r _
  rw [State.reg, State.reg, h]

theorem exec_sameRegs {i : Instr} {s t : State} (h : exec i s = .next t) : SameRegsExcept (regsWritten i) s t := by
  have e := exec_effect h
  cases i with
  | ldImm x nn => exact setV_sameRegs e
  | addImm x nn => exact setV_sameRegs e
  | ldReg x y => exact setV_sameRegs e
  | orReg x y => exact setV_sameRegs e
  | andReg x y => exact setV_sameRegs e
  | xorReg x y => exact setV_sameRegs e
  | ldXDt x => exact setV_sameRegs ⟨_, e⟩
  | rnd x nn => obtain ⟨b, rfl⟩ := e; exact setV_sameRegs (s := (drawRandom s).2) ⟨b, rfl⟩
  | addReg x y => exact flagThenResult_sameRegs e
  | sub x y => exact flagThenResult_sameRegs e
  | shr x y => exact flagThenResult_sameRegs e
  | subn x y => exact flagThenResult_sameRegs e
  | shl x y => exact flagThenResult_sameRegs e
  | drw x y n =>
    obtain ⟨b, f, rfl⟩ := e
    have flag : SameRegsExcept [flagReg] s (s.setVF b) := setV_sameRegs ⟨b, rfl⟩
    exact flag
  | ldRegs x =>
    obtain ⟨rfl, -⟩ := e
    intro r hr
    have above : x.val < r.val := by simpa [regsWritten] using hr
    exact loadRegs_reg_above (by simpa using above)
  | _ => exact sameRegs_of_v _ (by rw [exec_overlay h]; rfl)

/-- Settles O14: register by register, from what each instruction leaves. -/
theorem registersWrittenAreTheTable : Obligations.RegistersWrittenAreTheTable := by
  unfold Obligations.RegistersWrittenAreTheTable
  exact fun i s t => exec_sameRegs

/-- 00E0 and Dxyn set DIRTY (R32). -/
theorem exec_sets_dirty {i : Instr} {s t : State} (h : exec i s = .next t) (hi : i = .cls ∨ ∃ x y n, i = .drw x y n) :
    t.dirty = true := by
  rw [exec_overlay h]
  obtain rfl | ⟨x, y, n, rfl⟩ := hi <;> rfl

/-- Cxnn draws one byte (R118, R165). -/
theorem exec_rnd_draws {i : Instr} {s t : State} (h : exec i s = .next t) (hi : ∃ x nn, i = .rnd x nn) :
    t.rngDraws = s.rngDraws + 1 := by
  rw [exec_overlay h]
  obtain ⟨x, nn, rfl⟩ := hi
  rfl

/-- Settles O17: each field is in the frame of its own writers only. -/
theorem everyFieldHasItsOwnWriters : Obligations.EveryFieldHasItsOwnWriters := by
  unfold Obligations.EveryFieldHasItsOwnWriters
  intro i s t h
  refine ⟨fun hi => ?_, exec_sets_dirty h, fun hd => ?_, exec_rnd_draws h, exec_rngDraws h, exec_unwritten h⟩
  · by_contra none
    obtain ⟨ldI, addIX, ldFX⟩ : (∀ nnn, i ≠ .ldI nnn) ∧ (∀ x, i ≠ .addIX x) ∧ ∀ x, i ≠ .ldFX x := by
      simpa only [not_or, not_exists] using none
    exact hi (exec_i h ldI addIX ldFX)
  · obtain ⟨cls, drw⟩ : i ≠ .cls ∧ ∀ x y n, i ≠ .drw x y n := by simpa only [not_or, not_exists] using hd
    exact exec_fb_dirty h cls drw

end Sys2Proof.Machine
end

section
/-! PROOFS. From a word to its instruction and back (spec/30_encoding.md R89), and the words that decode to none (R87). -/

namespace Sys2Proof.Machine

/-! ## A word is the encoding of its own fields -/

/-- The sixteen opcode families. -/
theorem fieldF_cases (w : Word) :
    fieldF w = 0x0#4 ∨ fieldF w = 0x1#4 ∨ fieldF w = 0x2#4 ∨ fieldF w = 0x3#4 ∨ fieldF w = 0x4#4 ∨ fieldF w = 0x5#4 ∨
    fieldF w = 0x6#4 ∨ fieldF w = 0x7#4 ∨ fieldF w = 0x8#4 ∨ fieldF w = 0x9#4 ∨ fieldF w = 0xA#4 ∨ fieldF w = 0xB#4 ∨
    fieldF w = 0xC#4 ∨ fieldF w = 0xD#4 ∨ fieldF w = 0xE#4 ∨ fieldF w = 0xF#4 := by
  generalize fieldF w = f
  revert f
  decide

theorem encodeA_of_family {w : Word} {f : BitVec 4} (hf : fieldF w = f) : encodeA f (fieldNNN w) = w :=
  hf ▸ encodeA_fields w

theorem encodeXNN_of_family {w : Word} {f : BitVec 4} (hf : fieldF w = f) :
    encodeXNN f (fieldX w) (fieldNN w) = w := hf ▸ encodeXNN_fields w

theorem encodeXYN_of_family {w : Word} {f n : BitVec 4} (hf : fieldF w = f) (hn : fieldN w = n.toNat) :
    encodeXYN f (fieldX w) (fieldY w) n = w := hf ▸ encodeXYN_fields w n hn

/-- The mask of R89 clears the low nibble. -/
theorem toNat_and_FFF0 (w : Word) : (w &&& 0xFFF0#16).toNat = w.toNat / 16 * 16 := by
  have mask : 0xFFF0#16 = BitVec.allOnes 16 <<< 4 := rfl
  have := w.isLt
  rw [mask, ← BitVec.shiftLeft_ushiftRight, BitVec.toNat_shiftLeft, BitVec.toNat_ushiftRight, Nat.shiftRight_eq_div_pow,
    Nat.shiftLeft_eq]
  omega

/-- Format XY writes a zero low nibble, whatever the word had there. -/
theorem encodeXYN_zero_of_family {w : Word} {f : BitVec 4} (hf : fieldF w = f) :
    encodeXYN f (fieldX w) (fieldY w) 0x0#4 = w &&& 0xFFF0#16 := by
  subst hf
  apply BitVec.eq_of_toNat_eq
  rw [encodeXYN_toNat, toNat_and_FFF0, fieldF_toNat, fieldX_val, fieldY_val]
  show _ + 0 = _
  omega

/-! ## The families with selectors -/

theorem encode_aluInstr (op : AluOp) (x y : Reg) : encode (op.instr x y) = encodeXYN 0x8#4 x y (aluSelector op) := by
  cases op <;> rfl

theorem wellFormed_aluInstr (op : AluOp) (x y : Reg) : (op.instr x y).wellFormed = true := by
  cases op <;> rfl

theorem encode_of_decodeSystem {w : Word} {i : Instr} (h : decodeSystem w = .instr i) :
    i.wellFormed = true ∧ encode i = w := by
  unfold decodeSystem at h
  split_ifs at h with cls ret
  · injection h with h; subst h; exact ⟨rfl, cls.symm⟩
  · injection h with h; subst h; exact ⟨rfl, ret.symm⟩

theorem encode_of_decodeAlu {w : Word} {i : Instr} (hf : fieldF w = 0x8#4) (h : decodeAlu w = .instr i) :
    i.wellFormed = true ∧ encode i = w := by
  unfold decodeAlu at h
  split at h
  · next op hop =>
    injection h with h
    subst h
    rw [encode_aluInstr]
    exact ⟨wellFormed_aluInstr _ _ _, encodeXYN_of_family hf (toNat_aluSelector_of_aluOpOf hop).symm⟩
  · cases h

/-- An instruction that format XS writes as family `f` and selector `nn` encodes the word that has both. -/
theorem encode_of_selector (c : Reg → Instr) {w : Word} {i : Instr} {f : BitVec 4} {nn : Byte} (hf : fieldF w = f)
    (hn : fieldNN w = nn) (h : Decoded.instr (c (fieldX w)) = .instr i)
    (hc : ∀ x, (c x).wellFormed = true ∧ encode (c x) = encodeXNN f x nn) : i.wellFormed = true ∧ encode i = w := by
  injection h with h
  subst h
  obtain ⟨wf, enc⟩ := hc (fieldX w)
  exact ⟨wf, by rw [enc, ← hn, encodeXNN_of_family hf]⟩

theorem encode_of_decodeKey {w : Word} {i : Instr} (hf : fieldF w = 0xE#4) (h : decodeKey w = .instr i) :
    i.wellFormed = true ∧ encode i = w := by
  unfold decodeKey at h
  split_ifs at h with skp sknp
  · exact encode_of_selector .skp hf skp h fun _ => ⟨rfl, rfl⟩
  · exact encode_of_selector .sknp hf sknp h fun _ => ⟨rfl, rfl⟩

theorem encode_of_decodeMisc {w : Word} {i : Instr} (hf : fieldF w = 0xF#4) (h : decodeMisc w = .instr i) :
    i.wellFormed = true ∧ encode i = w := by
  unfold decodeMisc at h
  split_ifs at h with ldXDt ldXK ldDtX ldStX addIX ldFX ldBX stRegs ldRegs
  · exact encode_of_selector .ldXDt hf ldXDt h fun _ => ⟨rfl, rfl⟩
  · exact encode_of_selector .ldXK hf ldXK h fun _ => ⟨rfl, rfl⟩
  · exact encode_of_selector .ldDtX hf ldDtX h fun _ => ⟨rfl, rfl⟩
  · exact encode_of_selector .ldStX hf ldStX h fun _ => ⟨rfl, rfl⟩
  · exact encode_of_selector .addIX hf addIX h fun _ => ⟨rfl, rfl⟩
  · exact encode_of_selector .ldFX hf ldFX h fun _ => ⟨rfl, rfl⟩
  · exact encode_of_selector .ldBX hf ldBX h fun _ => ⟨rfl, rfl⟩
  · exact encode_of_selector .stRegs hf stRegs h fun _ => ⟨rfl, rfl⟩
  · exact encode_of_selector .ldRegs hf ldRegs h fun _ => ⟨rfl, rfl⟩

/-! ## Encode of decode (R89) -/

/-- A decoded sprite height is a nibble, so it fits its field. -/
theorem encode_drw_fields {w : Word} (hf : fieldF w = 0xD#4) :
    (Instr.drw (fieldX w) (fieldY w) (fieldN w)).wellFormed = true ∧
      encode (.drw (fieldX w) (fieldY w) (fieldN w)) = w := by
  have nibble : fieldN w < 16 := by rw [fieldN_eq]; omega
  refine ⟨decide_eq_true (show fieldN w ≤ 15 by omega), encodeXYN_of_family hf ?_⟩
  rw [BitVec.toNat_ofNat, Nat.mod_eq_of_lt nibble]

/-- The families that examine bits 3:0. -/
theorem encode_of_decode {w : Word} {i : Instr} (h : decode w = .instr i) (h5 : fieldF w ≠ 0x5#4)
    (h9 : fieldF w ≠ 0x9#4) : i.wellFormed = true ∧ encode i = w := by
  obtain f | f | f | f | f | f | f | f | f | f | f | f | f | f | f | f := fieldF_cases w
  · exact encode_of_decodeSystem (decode_family0 f ▸ h)
  · obtain rfl := Decoded.instr.inj ((decode_family1 f).symm.trans h); exact ⟨rfl, encodeA_of_family f⟩
  · obtain rfl := Decoded.instr.inj ((decode_family2 f).symm.trans h); exact ⟨rfl, encodeA_of_family f⟩
  · obtain rfl := Decoded.instr.inj ((decode_family3 f).symm.trans h); exact ⟨rfl, encodeXNN_of_family f⟩
  · obtain rfl := Decoded.instr.inj ((decode_family4 f).symm.trans h); exact ⟨rfl, encodeXNN_of_family f⟩
  · exact absurd f h5
  · obtain rfl := Decoded.instr.inj ((decode_family6 f).symm.trans h); exact ⟨rfl, encodeXNN_of_family f⟩
  · obtain rfl := Decoded.instr.inj ((decode_family7 f).symm.trans h); exact ⟨rfl, encodeXNN_of_family f⟩
  · exact encode_of_decodeAlu f (decode_family8 f ▸ h)
  · exact absurd f h9
  · obtain rfl := Decoded.instr.inj ((decode_familyA f).symm.trans h); exact ⟨rfl, encodeA_of_family f⟩
  · obtain rfl := Decoded.instr.inj ((decode_familyB f).symm.trans h); exact ⟨rfl, encodeA_of_family f⟩
  · obtain rfl := Decoded.instr.inj ((decode_familyC f).symm.trans h); exact ⟨rfl, encodeXNN_of_family f⟩
  · obtain rfl := Decoded.instr.inj ((decode_familyD f).symm.trans h); exact encode_drw_fields f
  · exact encode_of_decodeKey f (decode_familyE f ▸ h)
  · exact encode_of_decodeMisc f (decode_familyF f ▸ h)

/-- Families 0x5 and 0x9, which do not examine them (D10). -/
theorem encode_of_decode_masked {w : Word} {i : Instr} (h : decode w = .instr i)
    (hf : fieldF w = 0x5#4 ∨ fieldF w = 0x9#4) : i.wellFormed = true ∧ encode i = w &&& 0xFFF0#16 := by
  obtain f | f := hf
  · obtain rfl := Decoded.instr.inj ((decode_family5 f).symm.trans h); exact ⟨rfl, encodeXYN_zero_of_family f⟩
  · obtain rfl := Decoded.instr.inj ((decode_family9 f).symm.trans h); exact ⟨rfl, encodeXYN_zero_of_family f⟩

/-- Settles O3: family by family, a word is built from its own fields, low nibble apart in families 5 and 9. -/
theorem decodedWordIsTheEncoding : Obligations.DecodedWordIsTheEncoding := by
  unfold Obligations.DecodedWordIsTheEncoding
  intro w i h
  by_cases hf : fieldF w = 0x5#4 ∨ fieldF w = 0x9#4
  · obtain ⟨wf, enc⟩ := encode_of_decode_masked h hf
    exact ⟨wf, fun ⟨h5, h9⟩ => absurd hf (not_or.mpr ⟨h5, h9⟩), fun _ => enc⟩
  · obtain ⟨h5, h9⟩ := not_or.mp hf
    obtain ⟨wf, enc⟩ := encode_of_decode h h5 h9
    exact ⟨wf, fun _ => enc, fun masked => absurd masked hf⟩

/-! ## The unrecognized words (R87) -/

theorem decodeSystem_reject (w : Word) : (∃ e, decodeSystem w = .reject e) ↔ w ≠ 0x00E0#16 ∧ w ≠ 0x00EE#16 := by
  unfold decodeSystem
  split_ifs <;> simp_all

/-- The selectors of family 8 that name no operation (R85). -/
theorem aluOpOf_eq_none : ∀ n < 16, aluOpOf n = none ↔ n ∈ [0x8, 0x9, 0xA, 0xB, 0xC, 0xD, 0xF] := by
  decide

theorem decodeAlu_reject (w : Word) :
    (∃ e, decodeAlu w = .reject e) ↔ fieldN w ∈ [0x8, 0x9, 0xA, 0xB, 0xC, 0xD, 0xF] := by
  rw [← aluOpOf_eq_none (fieldN w) (by rw [fieldN_eq]; omega), decodeAlu]
  cases aluOpOf (fieldN w) <;> simp

theorem decodeKey_reject (w : Word) : (∃ e, decodeKey w = .reject e) ↔ fieldNN w ∉ [0x9E#8, 0xA1#8] := by
  unfold decodeKey
  split_ifs <;> simp_all

theorem decodeMisc_reject (w : Word) : (∃ e, decodeMisc w = .reject e) ↔
    fieldNN w ∉ [0x07#8, 0x0A#8, 0x15#8, 0x18#8, 0x1E#8, 0x29#8, 0x33#8, 0x55#8, 0x65#8] := by
  unfold decodeMisc
  split_ifs <;> simp_all

/-- Settles O4: the families without a selector reject nothing, and each of the other four rejects the words its own
decoder does. -/
theorem unrecognizedWordsAreTheTable : Obligations.UnrecognizedWordsAreTheTable := by
  unfold Obligations.UnrecognizedWordsAreTheTable
  intro w
  obtain f | f | f | f | f | f | f | f | f | f | f | f | f | f | f | f := fieldF_cases w
  · rw [decode_family0 f, decodeSystem_reject]; simp [f]
  · simp [decode_family1 f, f]
  · simp [decode_family2 f, f]
  · simp [decode_family3 f, f]
  · simp [decode_family4 f, f]
  · simp [decode_family5 f, f]
  · simp [decode_family6 f, f]
  · simp [decode_family7 f, f]
  · rw [decode_family8 f, decodeAlu_reject]; simp [f]
  · simp [decode_family9 f, f]
  · simp [decode_familyA f, f]
  · simp [decode_familyB f, f]
  · simp [decode_familyC f, f]
  · simp [decode_familyD f, f]
  · rw [decode_familyE f, decodeKey_reject]; simp [f]
  · rw [decode_familyF f, decodeMisc_reject]; simp [f]

/-- Settles O1: the decoder computes on each of the fourteen words. -/
theorem decodesWordsWrittenOutFromTheSpec : Obligations.DecodesWordsWrittenOutFromTheSpec := by
  unfold Obligations.DecodesWordsWrittenOutFromTheSpec
  decide

end Sys2Proof.Machine
end

section
/-! PROOFS. The step by what the fetch gives (spec/40_dispatch.md R110 to R114, spec/20_memory.md R54, R56), and the faults
of the instructions (spec/60_exceptions.md R250). -/

namespace Sys2Proof.Machine

/-! ## Fetch and dispatch -/

/-- Settles O5: the fetch reads those two bytes, and the step executes what they decode to. -/
theorem stepRunsTheDecodedInstruction : Obligations.StepRunsTheDecodedInstruction := by
  unfold Obligations.StepRunsTheDecodedInstruction
  intro s i hf hb hd
  exact step_eq_exec hf (fetchWord_ok s hb) hd

/-- A step that fetches no instruction reports the word. -/
theorem step_eq_report {s : State} {w : Word} {e : DecodeError} (hf : s.fault = none) (hw : fetchWord s = .ok w)
    (hd : decode w = .reject e) : step s = .next (s.advancePc.report ⟨w, s.pc⟩) := by
  simp only [step_fetched hf hw, hd]

/-- Settles O6: the report appends to the events of the advanced state. -/
theorem stepReportsAnUnrecognizedWord : Obligations.StepReportsAnUnrecognizedWord := by
  unfold Obligations.StepReportsAnUnrecognizedWord
  intro s w e hf hb hw hd
  exact step_eq_report hf (by rw [fetchWord_ok s hb, hw]) hd

/-- Settles O7: both bytes are inside memory below 0xFFF, and from there on the first address outside is PC or 0x1000. -/
theorem fetchIsBigEndianAndBounded : Obligations.FetchIsBigEndianAndBounded := by
  unfold Obligations.FetchIsBigEndianAndBounded
  intro s hf
  refine ⟨fun hb => ⟨_, fetchWord_ok s (by omega), wordOfBytes_toNat _ _⟩, fun outside => ?_, fun last => ?_⟩
  · rw [step_fetch_oob hf (by omega), Nat.max_eq_left outside]
  · rw [step_fetch_oob hf (by omega), last]
    rfl

/-! ## No refusal (R13) -/

/-- No arm of `exec` answers a refusal. -/
theorem exec_ne_refused (i : Instr) (s : State) (r : Refusal) : exec i s ≠ .refused r := by
  cases i with
  | ret => exact complete_ne_refused _ r
  | call nnn => exact complete_ne_refused _ r
  | drw x y n => exact complete_ne_refused _ r
  | skp x => exact complete_ne_refused _ r
  | sknp x => exact complete_ne_refused _ r
  | ldBX x => exact complete_ne_refused _ r
  | stRegs x => exact complete_ne_refused _ r
  | ldRegs x => exact complete_ne_refused _ r
  | _ => nofun

theorem step_ne_refused {s : State} (hf : s.fault = none) (r : Refusal) : step s ≠ .refused r := by
  cases hw : fetchWord s with
  | error f => simp [step, hf, hw]
  | ok w =>
    cases hd : decode w with
    | instr i => rw [step_eq_exec hf hw hd]; exact exec_ne_refused i _ r
    | reject e => rw [step_eq_report hf hw hd]; nofun

/-- Settles O9: neither `exec` nor a step of a core that has not faulted refuses. -/
theorem nothingIsRefusedWhileFaultIsNone : Obligations.NothingIsRefusedWhileFaultIsNone := by
  unfold Obligations.NothingIsRefusedWhileFaultIsNone
  exact ⟨exec_ne_refused, fun s r hf => step_ne_refused hf r⟩

/-! ## The causes of the faults (R250) -/

theorem execRet_fault {s : State} {f : Fault} (h : execRet s = .fault f) :
    f = .stackUnderflow s.pcFetch ∧ s.sp.val = 0 := by
  by_cases hs : 0 < s.sp.val
  · rw [execRet_ok s hs] at h
    cases h
  · rw [execRet_empty s hs] at h
    injection h with h
    exact ⟨h.symm, by omega⟩

theorem execCall_fault {nnn : BitVec 12} {s : State} {f : Fault} (h : execCall nnn s = .fault f) :
    f = .stackOverflow s.pcFetch ∧ s.sp.val = 16 := by
  by_cases hs : s.sp.val < 16
  · rw [execCall_ok nnn s hs] at h
    cases h
  · rw [execCall_full nnn s hs] at h
    injection h with h
    have := s.sp.isLt
    exact ⟨h.symm, by omega⟩

theorem execSkp_range (x : Reg) (s : State) (h : ¬ (s.reg x).toNat < 16) :
    execSkp x s = .fault (.keyRange (s.reg x) s.pcFetch) := by
  simp only [execSkp, keyOperand_range s x h, complete_error]

theorem execSknp_range (x : Reg) (s : State) (h : ¬ (s.reg x).toNat < 16) :
    execSknp x s = .fault (.keyRange (s.reg x) s.pcFetch) := by
  simp only [execSknp, keyOperand_range s x h, complete_error]

theorem execSkp_fault {x : Reg} {s : State} {f : Fault} (h : execSkp x s = .fault f) :
    f = .keyRange (s.reg x) s.pcFetch ∧ 16 ≤ (s.reg x).toNat := by
  by_cases hs : (s.reg x).toNat < 16
  · rw [execSkp_ok x s hs] at h
    cases h
  · rw [execSkp_range x s hs] at h
    injection h with h
    exact ⟨h.symm, Nat.not_lt.mp hs⟩

theorem execSknp_fault {x : Reg} {s : State} {f : Fault} (h : execSknp x s = .fault f) :
    f = .keyRange (s.reg x) s.pcFetch ∧ 16 ≤ (s.reg x).toNat := by
  by_cases hs : (s.reg x).toNat < 16
  · rw [execSknp_ok x s hs] at h
    cases h
  · rw [execSknp_range x s hs] at h
    injection h with h
    exact ⟨h.symm, Nat.not_lt.mp hs⟩

/-- The first address outside memory of a run of accesses is one of its own. -/
theorem first_outside {a n : Nat} (h : 4096 < a + (n + 1)) : 0x1000 ≤ max a 4096 ∧ ∃ j ≤ n, max a 4096 = a + j :=
  ⟨Nat.le_max_right a 4096, max a 4096 - a, by omega, by omega⟩

theorem storeBytes_fault {p : Option Word} {bs : List Byte} {a : Nat} {s : State} {f : Fault}
    (h : complete (storeBytes p bs a s) = .fault f) : f = .memOob (max a 4096) .write p ∧ 4096 < a + bs.length := by
  have h := complete_fault h
  obtain ⟨-, e⟩ | ⟨hb, e⟩ := storeBytes_cases p bs a s
  · rw [e] at h
    cases h
  · rw [e] at h
    injection h with h
    exact ⟨h.symm, hb⟩

theorem execLdRegs_oob (x : Reg) (s : State) (h : 4096 ≤ s.i.toNat + x.val) :
    execLdRegs x s = .fault (.memOob (max s.i.toNat 4096) .read (some s.pcFetch)) := by
  have oob : 4096 < s.i.toNat + (x.val + 1) := by omega
  simp only [execLdRegs, readBytes_oob s (x.val + 1) s.i.toNat (Nat.succ_pos _) oob, complete_error]

theorem execLdRegs_fault {x : Reg} {s : State} {f : Fault} (h : execLdRegs x s = .fault f) :
    f = .memOob (max s.i.toNat 4096) .read (some s.pcFetch) ∧ 4096 < s.i.toNat + (x.val + 1) := by
  by_cases hb : s.i.toNat + x.val < 4096
  · rw [execLdRegs_ok x s hb] at h
    cases h
  · rw [execLdRegs_oob x s (Nat.not_lt.mp hb)] at h
    injection h with h
    exact ⟨h.symm, by omega⟩

theorem execDrw_fault {x y : Reg} {n : Nat} {s : State} {f : Fault} (h : execDrw x y n s = .fault f) :
    drawRows (originX s x) (originY s y) (List.range n) (s.setVF 0) = .error f := by
  have h := complete_fault h
  split at h
  · next g hg => rw [hg, ← h]
  · cases h

/-- Settles O10: the instructions that can fault, one by one; the others always answer a next state. -/
theorem faultsHaveTheCausesOfTheTable : Obligations.FaultsHaveTheCausesOfTheTable := by
  unfold Obligations.FaultsHaveTheCausesOfTheTable
  intro i s f h
  cases i with
  | ret => obtain ⟨rfl, hs⟩ := execRet_fault h; exact ⟨rfl, hs, rfl⟩
  | call nnn => obtain ⟨rfl, hs⟩ := execCall_fault h; exact ⟨rfl, hs, nnn, rfl⟩
  | skp x => obtain ⟨rfl, hk⟩ := execSkp_fault h; exact ⟨rfl, hk, x, rfl, .inl rfl⟩
  | sknp x => obtain ⟨rfl, hk⟩ := execSknp_fault h; exact ⟨rfl, hk, x, rfl, .inr rfl⟩
  | ldRegs x =>
    obtain ⟨rfl, hb⟩ := execLdRegs_fault h
    obtain ⟨outside, own⟩ := first_outside hb
    exact ⟨outside, rfl, .inl ⟨rfl, .inr ⟨x, rfl, own⟩⟩⟩
  | ldBX x =>
    obtain ⟨rfl, hb⟩ := storeBytes_fault h
    obtain ⟨outside, own⟩ := first_outside (n := 2) hb
    exact ⟨outside, rfl, .inr ⟨rfl, .inl ⟨x, rfl, own⟩⟩⟩
  | stRegs x =>
    obtain ⟨rfl, hb⟩ := storeBytes_fault h
    rw [regsUpTo_length] at hb
    obtain ⟨outside, own⟩ := first_outside hb
    exact ⟨outside, rfl, .inr ⟨rfl, .inr ⟨x, rfl, own⟩⟩⟩
  | drw x y n =>
    obtain ⟨r, hr, ⟨outside, rfl⟩ | ⟨c, hc, set, placed, rfl⟩⟩ := drawRows_error (execDrw_fault h)
    · exact ⟨outside, rfl, .inl ⟨rfl, .inl ⟨x, y, n, rfl, r, List.mem_range.mp hr, rfl⟩⟩⟩
    · refine ⟨rfl, (edgePlace_eq _ _ _).trans placed, x, y, n, rfl, r, List.mem_range.mp hr, c, hc, ?_, rfl, rfl⟩
      rw [spriteAt_eq]
      exact set
  | _ => cases h

end Sys2Proof.Machine
end

section
/-! PROOFS. What instructions do not read: the stack, but for 00EE (spec/10_state.md R27), and the outputs of the host
(spec/40_dispatch.md R117). A field is not read when setting it before the instruction changes nothing else after it. -/

namespace Sys2Proof.Machine

/-! ## Outcomes up to an update of the state -/

/-- An outcome with the update `m` made to its next state. -/
def mapNext (m : State → State) : Host.Outcome State Fault Refusal → Host.Outcome State Fault Refusal
  | .next s => .next (m s)
  | .fault f => .fault f
  | .refused r => .refused r

/-- The instruction does not read what `m` sets: setting it first changes nothing else in the outcome. -/
def BlindTo (m : State → State) (i : Instr) : Prop := ∀ s, mapNext m (exec i (m s)) = mapNext m (exec i s)

theorem BlindTo.fault {m : State → State} {i : Instr} (hb : BlindTo m i) {s : State} {f : Fault}
    (h : exec i s = .fault f) : exec i (m s) = .fault f := by
  have e := hb s
  rw [h] at e
  cases hu : exec i (m s) with
  | fault g => rw [hu] at e; injection e with e; rw [e]
  | next u => rw [hu] at e; cases e
  | refused r => rw [hu] at e; cases e

theorem BlindTo.next {m : State → State} {i : Instr} (hb : BlindTo m i) {s t : State} (h : exec i s = .next t) :
    ∃ u, exec i (m s) = .next u ∧ m u = m t := by
  have e := hb s
  rw [h] at e
  cases hu : exec i (m s) with
  | next u => rw [hu] at e; injection e with e; exact ⟨u, rfl, e⟩
  | fault g => rw [hu] at e; cases e
  | refused r => rw [hu] at e; cases e

/-! ## The shared operations do not read what an update sets -/

/-- `m` sets fields that no instruction but 2nnn and 00EE reads, and that only `setDirty`, `setSt` and `startWait` may
write. -/
structure Unread (m : State → State) : Prop where
  idem : ∀ s, m (m s) = m s
  config : ∀ s, (m s).config = s.config
  mem : ∀ s, (m s).mem = s.mem
  v : ∀ s, (m s).v = s.v
  i : ∀ s, (m s).i = s.i
  pc : ∀ s, (m s).pc = s.pc
  fb : ∀ s, (m s).fb = s.fb
  keys : ∀ s, (m s).keys = s.keys
  dt : ∀ s, (m s).dt = s.dt
  rngSeed : ∀ s, (m s).rngSeed = s.rngSeed
  rngDraws : ∀ s, (m s).rngDraws = s.rngDraws
  setV : ∀ s x b, (m s).setV x b = m (s.setV x b)
  loadRegs : ∀ s bytes, loadRegs (m s) bytes = m (loadRegs s bytes)
  drawRandom : ∀ s, (drawRandom (m s)).2 = m (drawRandom s).2
  setI : ∀ s a, (m s).setI a = m (s.setI a)
  setDt : ∀ s b, (m s).setDt b = m (s.setDt b)
  setMem : ∀ s a, (m s).setMem a = m (s.setMem a)
  setFb : ∀ s f, (m s).setFb f = m (s.setFb f)
  setPc : ∀ s a, (m s).setPc a = m (s.setPc a)
  setDirty : ∀ s b, m ((m s).setDirty b) = m (s.setDirty b)
  setSt : ∀ s b, m ((m s).setSt b) = m (s.setSt b)
  startWait : ∀ s x, m ((m s).startWait x) = m (s.startWait x)

namespace Unread
variable {m : State → State} (hm : Unread m)
include hm

theorem pcFetch (s : State) : (m s).pcFetch = s.pcFetch := by rw [State.pcFetch, hm.pc, State.pcFetch]

theorem reg (s : State) (x : Reg) : (m s).reg x = s.reg x := by simp only [State.reg, hm.v]

theorem pixel (s : State) (l : Nat) : (m s).pixel l = s.pixel l := by rw [State.pixel, hm.fb, State.pixel]

theorem setVF (s : State) (b : Byte) : (m s).setVF b = m (s.setVF b) := hm.setV s flagReg b

theorem skipIf (s : State) (c : Bool) : (m s).skipIf c = m (s.skipIf c) := by
  rw [skipIf_eq, hm.pc, hm.setPc, skipIf_eq]

theorem mapNext_next {t u : State} (h : u = m t) : mapNext m (.next u) = mapNext m (.next t) := by
  rw [h, mapNext, hm.idem, mapNext]

theorem mapNext_complete (r : Except Fault State) : mapNext m (complete (r.map m)) = mapNext m (complete r) := by
  cases r with
  | ok s => exact hm.mapNext_next rfl
  | error f => rfl

theorem flagThenResult {s : State} {x : Reg} {c c' : Bool} {f f' : State → Byte} (hc : c' = c)
    (hf : ∀ t, f' (m t) = f t) : flagThenResult (m s) x c' f' = m (Machine.flagThenResult s x c f) := by
  unfold Machine.flagThenResult
  rw [hm.config, hc]
  cases s.config.aluOrder <;> simp only [hm.setVF, hm.setV, hf]

theorem readBytes (s : State) (n a : Nat) : readBytes (m s) a n = Machine.readBytes s a n := by
  induction n generalizing a with
  | zero => rfl
  | succ n ih => simp only [Machine.readBytes, memRead, hm.mem, hm.pcFetch, ih]

theorem storeBytes (p : Option Word) (bs : List Byte) (a : Nat) (s : State) :
    storeBytes p bs a (m s) = (Machine.storeBytes p bs a s).map m := by
  induction bs generalizing a s with
  | nil => rfl
  | cons b bs ih =>
    by_cases ha : a < 4096
    · simp only [Machine.storeBytes, memWrite_ok _ b p ha, hm.mem, hm.setMem, ih]
    · simp only [Machine.storeBytes, memWrite_oob _ b p (Nat.not_lt.mp ha)]
      rfl

theorem xorPixel (s : State) (p : Nat) : xorPixel (m s) p = m (Machine.xorPixel s p) := by
  unfold Machine.xorPixel
  rw [hm.pixel, hm.fb]
  split
  · rw [hm.setVF, hm.setFb]
  · rw [hm.setFb]

theorem drawBit (s : State) (x y : Nat) : drawBit (m s) x y = (Machine.drawBit s x y).map m := by
  unfold Machine.drawBit
  rw [hm.config, hm.pcFetch]
  cases place s.config.edgeMode x y with
  | cell p => exact congrArg Except.ok (hm.xorPixel s p)
  | skip => rfl
  | outside => rfl

theorem drawCols (row : Byte) (ox y : Nat) (cs : List Nat) (s : State) :
    drawCols row ox y cs (m s) = (Machine.drawCols row ox y cs s).map m := by
  induction cs generalizing s with
  | nil => rfl
  | cons c cs ih =>
    simp only [Machine.drawCols, hm.drawBit]
    split
    · cases Machine.drawBit s (ox + c) y with
      | error f => rfl
      | ok s' => exact ih s'
    · exact ih s

theorem drawRows (ox oy : Nat) (rs : List Nat) (s : State) :
    drawRows ox oy rs (m s) = (Machine.drawRows ox oy rs s).map m := by
  induction rs generalizing s with
  | nil => rfl
  | cons r rs ih =>
    simp only [Machine.drawRows, memRead, hm.mem, hm.i, hm.pcFetch, hm.drawCols]
    split
    · rfl
    · next row _ =>
      cases Machine.drawCols row ox (oy + r) (List.range Config.spriteW) s with
      | error f => rfl
      | ok s' => exact ih s'

theorem keyOperand (s : State) (x : Reg) : keyOperand (m s) x = Machine.keyOperand s x := by
  simp only [Machine.keyOperand, hm.reg, hm.pcFetch]

/-- Dxyn does not read it: its origin is read from registers, and its rows are drawn alike. -/
theorem execDrw (x y : Reg) (n : Nat) (s : State) :
    mapNext m (execDrw x y n (m s)) = mapNext m (Machine.execDrw x y n s) := by
  simp only [Machine.execDrw, originX, originY, hm.reg, hm.setVF, hm.drawRows]
  cases Machine.drawRows ((s.reg x).toNat % Config.fbW) ((s.reg y).toNat % Config.fbH) (List.range n) (s.setVF 0) with
  | error f => rfl
  | ok s' => exact congrArg Host.Outcome.next (hm.setDirty s' true)

theorem execSkp (x : Reg) (s : State) : mapNext m (execSkp x (m s)) = mapNext m (Machine.execSkp x s) := by
  simp only [Machine.execSkp, hm.keyOperand, hm.keys]
  cases Machine.keyOperand s x with
  | error f => rfl
  | ok k => exact hm.mapNext_next (hm.skipIf s _)

theorem execSknp (x : Reg) (s : State) : mapNext m (execSknp x (m s)) = mapNext m (Machine.execSknp x s) := by
  simp only [Machine.execSknp, hm.keyOperand, hm.keys]
  cases Machine.keyOperand s x with
  | error f => rfl
  | ok k => exact hm.mapNext_next (hm.skipIf s _)

theorem execLdBX (x : Reg) (s : State) : mapNext m (execLdBX x (m s)) = mapNext m (Machine.execLdBX x s) := by
  simp only [Machine.execLdBX, hm.pcFetch, hm.reg, hm.i, hm.storeBytes, hm.mapNext_complete]

theorem execStRegs (x : Reg) (s : State) : mapNext m (execStRegs x (m s)) = mapNext m (Machine.execStRegs x s) := by
  simp only [Machine.execStRegs, regsUpTo, hm.pcFetch, hm.v, hm.i, hm.storeBytes, hm.mapNext_complete]

theorem execLdRegs (x : Reg) (s : State) : mapNext m (execLdRegs x (m s)) = mapNext m (Machine.execLdRegs x s) := by
  simp only [Machine.execLdRegs, hm.i, hm.readBytes]
  cases Machine.readBytes s s.i.toNat (x.val + 1) with
  | error f => rfl
  | ok bytes => exact hm.mapNext_next (hm.loadRegs s bytes)

theorem execRnd (x : Reg) (nn : Byte) (s : State) :
    mapNext m (execRnd x nn (m s)) = mapNext m (Machine.execRnd x nn s) := by
  have byte : (Machine.drawRandom (m s)).1 = (Machine.drawRandom s).1 := by
    simp only [Machine.drawRandom, hm.rngSeed, hm.rngDraws]
  refine hm.mapNext_next ?_
  rw [hm.drawRandom, byte, hm.setV]

/-- No instruction but 2nnn and 00EE, for which it is to be shown apart, reads what `m` sets. -/
theorem blindTo {i : Instr} (call : ∀ nnn, i = .call nnn → BlindTo m i) (ret : i = .ret → BlindTo m i) :
    BlindTo m i := by
  intro s
  cases i with
  | cls =>
    show Host.Outcome.next (m (((m s).setFb 0).setDirty true)) = .next (m ((s.setFb 0).setDirty true))
    rw [hm.setFb, hm.setDirty]
  | ret => exact ret rfl s
  | jp nnn => exact hm.mapNext_next (hm.setPc s _)
  | call nnn => exact call nnn rfl s
  | seImm x nn => exact hm.mapNext_next (by rw [hm.reg, hm.skipIf])
  | sneImm x nn => exact hm.mapNext_next (by rw [hm.reg, hm.skipIf])
  | seReg x y => exact hm.mapNext_next (by rw [hm.reg, hm.reg, hm.skipIf])
  | ldImm x nn => exact hm.mapNext_next (hm.setV s x nn)
  | addImm x nn => exact hm.mapNext_next (by rw [hm.reg, hm.setV])
  | ldReg x y => exact hm.mapNext_next (by rw [hm.reg, hm.setV])
  | orReg x y => exact hm.mapNext_next (by rw [hm.reg, hm.reg, hm.setV])
  | andReg x y => exact hm.mapNext_next (by rw [hm.reg, hm.reg, hm.setV])
  | xorReg x y => exact hm.mapNext_next (by rw [hm.reg, hm.reg, hm.setV])
  | addReg x y => exact hm.mapNext_next (hm.flagThenResult (by simp only [hm.reg]) fun t => by simp only [hm.reg])
  | sub x y => exact hm.mapNext_next (hm.flagThenResult (by simp only [hm.reg]) fun t => by simp only [hm.reg])
  | shr x y =>
    exact hm.mapNext_next (hm.flagThenResult (by simp only [shiftReg, hm.config, hm.reg]) fun t => by
      simp only [shiftReg, hm.config, hm.reg])
  | subn x y => exact hm.mapNext_next (hm.flagThenResult (by simp only [hm.reg]) fun t => by simp only [hm.reg])
  | shl x y =>
    exact hm.mapNext_next (hm.flagThenResult (by simp only [shiftReg, hm.config, hm.reg]) fun t => by
      simp only [shiftReg, hm.config, hm.reg])
  | sneReg x y => exact hm.mapNext_next (by rw [hm.reg, hm.reg, hm.skipIf])
  | ldI nnn => exact hm.mapNext_next (hm.setI s _)
  | jpV0 nnn => exact hm.mapNext_next (by simp only [indexedTarget, hm.reg, hm.setPc])
  | rnd x nn => exact hm.execRnd x nn s
  | drw x y n => exact hm.execDrw x y n s
  | skp x => exact hm.execSkp x s
  | sknp x => exact hm.execSknp x s
  | ldXDt x => exact hm.mapNext_next (by rw [hm.dt, hm.setV])
  | ldXK x => exact congrArg Host.Outcome.next (hm.startWait s x)
  | ldDtX x => exact hm.mapNext_next (by rw [hm.reg, hm.setDt])
  | ldStX x =>
    show Host.Outcome.next (m ((m s).setSt ((m s).reg x))) = .next (m (s.setSt (s.reg x)))
    rw [hm.reg, hm.setSt]
  | addIX x => exact hm.mapNext_next (by rw [hm.i, hm.reg, hm.setI])
  | ldFX x => exact hm.mapNext_next (by rw [hm.reg, hm.setI])
  | ldBX x => exact hm.execLdBX x s
  | stRegs x => exact hm.execStRegs x s
  | ldRegs x => exact hm.execLdRegs x s

end Unread

/-! ## The stack is read by 00EE only (R27) -/

/-- The stack replaced whole. -/
def withStack (k : Vector Word 16) (s : State) : State := { s with stack := k }

theorem withStack_unread (k : Vector Word 16) : Unread (withStack k) := by
  constructor <;> intros <;> rfl

theorem execCall_withStack (k : Vector Word 16) (nnn : BitVec 12) (s : State) :
    mapNext (withStack k) (execCall nnn (withStack k s)) = mapNext (withStack k) (execCall nnn s) := by
  by_cases hs : s.sp.val < 16
  · rw [execCall_ok nnn s hs, execCall_ok nnn (withStack k s) hs]
    rfl
  · rw [execCall_full nnn s hs, execCall_full nnn (withStack k s) hs]
    rfl

theorem blindTo_withStack (k : Vector Word 16) {i : Instr} (hi : i ≠ .ret) : BlindTo (withStack k) i :=
  (withStack_unread k).blindTo (by rintro nnn rfl; exact execCall_withStack k nnn) fun ret => absurd ret hi

/-- Two states that agree once the stack is set differ in the stack only. -/
theorem eq_of_withStack_eq {k : Vector Word 16} {t u : State} (h : withStack k u = withStack k t) :
    { u with stack := t.stack } = t := by
  have e := congrArg (withStack t.stack) h
  exact e

/-- Settles O16: the stack and SP are in the frames of 2nnn and 00EE only, and no instruction but 00EE reads the stack. -/
theorem onlyCallAndRetTouchTheStack : Obligations.OnlyCallAndRetTouchTheStack := by
  unfold Obligations.OnlyCallAndRetTouchTheStack
  refine ⟨fun i s t h call => ⟨exec_stack h call, exec_sp h call⟩, fun i s k hi => ⟨fun f h => ?_, fun t h => ?_⟩⟩
  · exact (blindTo_withStack k hi).fault h
  · obtain ⟨u, hu, e⟩ := (blindTo_withStack k hi).next h
    exact ⟨u, hu, eq_of_withStack_eq e⟩

/-! ## No instruction reads ST, DIRTY, WAIT, WAIT_REG or the events (R30, R32, R37, R117) -/

/-- The outputs of the host replaced. -/
def withOutputs (b : Byte) (d w : Bool) (x : Reg) (es : List Report) (s : State) : State :=
  { s with st := b, dirty := d, wait := w, waitReg := x, events := es }

section
variable (b : Byte) (d w : Bool) (x : Reg) (es : List Report)

theorem withOutputs_unread : Unread (withOutputs b d w x es) := by
  constructor <;> intros <;> rfl

theorem execRet_withOutputs (s : State) : mapNext (withOutputs b d w x es) (execRet (withOutputs b d w x es s)) =
    mapNext (withOutputs b d w x es) (execRet s) := by
  by_cases hs : 0 < s.sp.val
  · rw [execRet_ok s hs, execRet_ok (withOutputs b d w x es s) hs]
    rfl
  · rw [execRet_empty s hs, execRet_empty (withOutputs b d w x es s) hs]
    rfl

theorem execCall_withOutputs (nnn : BitVec 12) (s : State) :
    mapNext (withOutputs b d w x es) (execCall nnn (withOutputs b d w x es s)) =
      mapNext (withOutputs b d w x es) (execCall nnn s) := by
  by_cases hs : s.sp.val < 16
  · rw [execCall_ok nnn s hs, execCall_ok nnn (withOutputs b d w x es s) hs]
    rfl
  · rw [execCall_full nnn s hs, execCall_full nnn (withOutputs b d w x es s) hs]
    rfl

theorem blindTo_withOutputs (i : Instr) : BlindTo (withOutputs b d w x es) i :=
  (withOutputs_unread b d w x es).blindTo (by rintro nnn rfl; exact execCall_withOutputs b d w x es nnn)
    (by rintro rfl; exact execRet_withOutputs b d w x es)

/-- Two states that agree once the outputs are set differ in the outputs only. -/
theorem eq_of_withOutputs_eq {t u : State} (h : withOutputs b d w x es u = withOutputs b d w x es t) :
    { u with st := t.st, dirty := t.dirty, wait := t.wait, waitReg := t.waitReg, events := t.events } = t := by
  have e := congrArg (withOutputs t.st t.dirty t.wait t.waitReg t.events) h
  exact e

end

/-- Settles O20: every instruction is blind to the outputs. -/
theorem noInstructionReadsTheHostsOutputs : Obligations.NoInstructionReadsTheHostsOutputs := by
  unfold Obligations.NoInstructionReadsTheHostsOutputs
  intro i s b d w x es
  have blind := blindTo_withOutputs b d w x es i
  refine ⟨fun f h => blind.fault h, fun t h => ?_⟩
  obtain ⟨u, hu, e⟩ := blind.next h
  exact ⟨u, hu, eq_of_withOutputs_eq b d w x es e⟩

end Sys2Proof.Machine
end

section
/-! PROOFS. Calls and returns, the indexed jump and the register skips (spec/41_control_transfer.md R130 to R142), and the
end of a run (spec/40_dispatch.md R120). -/

namespace Sys2Proof.Machine

/-! ## CALL and RET (R130 to R133, R142) -/

theorem exec_call_ok (nnn : BitVec 12) {s : State} (h : s.sp.val < 16) :
    exec (.call nnn) s = .next { s with
      pc := zextAddr nnn
      stack := s.stack.set s.sp.val s.pc h
      sp := ⟨s.sp.val + 1, Nat.succ_lt_succ h⟩ } := execCall_ok nnn s h

/-- A return with `k + 1` occupied slots pops slot `k`. -/
theorem exec_ret_ok {s : State} {k : Fin 16} (h : s.sp.val = k.val + 1) :
    exec .ret s = .next { s with pc := s.stack[k.val], sp := k.castSucc } := by
  have popped := execRet_ok s (by omega)
  have slot : s.sp.val - 1 = k.val := by omega
  simp only [slot] at popped
  exact popped

/-- Settles O23: the push writes the slot at SP, and a full stack faults. -/
theorem callPushesTheAdvancedPc : Obligations.CallPushesTheAdvancedPc := by
  unfold Obligations.CallPushesTheAdvancedPc
  refine fun nnn s => ⟨fun h => ?_, fun full => execCall_full nnn s (by omega)⟩
  refine ⟨_, exec_call_ok nnn h, zextAddr_toNat nnn, rfl, fun k => ?_, fun _ => rfl, rfl⟩
  rw [Vector.getElem_set]
  simp only [eq_comm]

/-- Settles O24: the pop reads the slot below SP and writes none, and an empty stack faults. -/
theorem returnPopsIntoPc : Obligations.ReturnPopsIntoPc := by
  unfold Obligations.ReturnPopsIntoPc
  refine fun s => ⟨fun k h => ?_, fun empty => execRet_empty s (by omega)⟩
  exact ⟨_, exec_ret_ok h, rfl, rfl, fun _ => rfl, rfl⟩

/-- Settles O25: the call leaves the advanced PC in slot `k`, which is the one the return pops. -/
theorem returnComesBackAfterTheCall : Obligations.ReturnComesBackAfterTheCall := by
  unfold Obligations.ReturnComesBackAfterTheCall
  intro nnn k s hk
  refine ⟨_, exec_call_ok nnn (by omega), fun t' hsp hslot => ?_⟩
  have depth : t'.sp.val = k.val + 1 := (congrArg Fin.val hsp).trans (congrArg (· + 1) hk)
  refine ⟨_, exec_ret_ok depth, ?_, Fin.ext hk.symm⟩
  rw [hslot, Vector.getElem_set, if_pos hk]

/-! ## JP V0, nnn (R139) -/

theorem exec_jpV0 (nnn : BitVec 12) (s : State) : exec (.jpV0 nnn) s = .next (s.setPc (indexedTarget s nnn)) := rfl

/-- Settles O28: the sum of a 12-bit and an 8-bit number stays below 2^16, and a fetch from 0xFFF on leaves memory. -/
theorem indexedJumpAddsV0 : Obligations.IndexedJumpAddsV0 := by
  unfold Obligations.IndexedJumpAddsV0
  intro nnn s
  have target : (s.setPc (indexedTarget s nnn)).pc.toNat = nnn.toNat + (s.reg 0).toNat := indexedTarget_toNat s nnn
  refine ⟨_, exec_jpV0 nnn s, target, ?_, rfl, fun hf outside => step_fetch_oob hf (by omega)⟩
  have := nnn.isLt
  have := (s.reg 0).isLt
  omega

/-! ## SE Vx, Vy and SNE Vx, Vy (R137, R138) -/

theorem exec_seReg (x y : Reg) (s : State) :
    exec (.seReg x y) s = .next (s.skipIf (decide (s.reg x = s.reg y))) := rfl

theorem exec_sneReg (x y : Reg) (s : State) :
    exec (.sneReg x y) s = .next (s.skipIf (decide (s.reg x ≠ s.reg y))) := rfl

/-- Settles O27: both arms are a `skipIf` on the comparison, SNE's with the branches swapped. -/
theorem registerSkipsCompareVxWithVy : Obligations.RegisterSkipsCompareVxWithVy := by
  unfold Obligations.RegisterSkipsCompareVxWithVy
  refine ⟨fun w h => decode_family5 h, fun w h => decode_family9 h, fun x y s => ⟨?_, ?_⟩⟩
  · rw [exec_seReg, skipIf_decide]
  · rw [exec_sneReg, skipIf_decide, ite_not]

/-! ## The end of a run (R120) -/

/-- An idle core executes the jump to its own address. -/
theorem step_idle {s : State} (hf : s.fault = none) (h : s.Idle) : step s = .next s := by
  obtain ⟨w, hw, family, target⟩ := h
  exact step_selfJump hf hw (decode_family1 family) target

theorem runsTo_of_step_self {s : State} (h : step s = .next s) (k : Nat) : RunsTo k s s := by
  induction k with
  | zero => rfl
  | succ k ih =>
    unfold RunsTo Host.Core.run
    simp only [h]
    exact ih

/-- Settles O22: the three ends are what `runEnd` answers, a run stops there, and goes on elsewhere. -/
theorem idleCoreStaysAsItIs : Obligations.IdleCoreStaysAsItIs := by
  unfold Obligations.IdleCoreStaysAsItIs
  refine ⟨fun s k hf h => runsTo_of_step_self (step_idle hf h) k, fun ops a f hf => run_ended (runEnd_faulted ops hf),
    fun ops a hf hl h => run_ended (runEnd_idle ops hf hl h),
    fun ops a hf hl hi hw hp => run_ended (runEnd_waiting hf hl hi hw hp), fun ops a hf h => ?_⟩
  have goesOn : a.runEnd ops = none := runEnd_none hf h
  refine ⟨?_, ?_⟩
  · rintro rfl
    simp only [Session.run, goesOn]
  · rintro op rest rfl
    exact ⟨fun e => run_refused goesOn, fun b r => run_next goesOn⟩

end Sys2Proof.Machine
end

section
/-! PROOFS. The logic operations, the flag operations under every order and shift source, and the random byte
(spec/42_register_alu.md R152 to R165). -/

namespace Sys2Proof.Machine

/-! ## Assign and logic (R153 to R156) -/

theorem exec_ldReg (x y : Reg) (s : State) : exec (.ldReg x y) s = .next (s.setV x (s.reg y)) := rfl

theorem exec_orReg (x y : Reg) (s : State) : exec (.orReg x y) s = .next (s.setV x (s.reg x ||| s.reg y)) := rfl

theorem exec_andReg (x y : Reg) (s : State) : exec (.andReg x y) s = .next (s.setV x (s.reg x &&& s.reg y)) := rfl

theorem exec_xorReg (x y : Reg) (s : State) : exec (.xorReg x y) s = .next (s.setV x (s.reg x ^^^ s.reg y)) := rfl

/-- Family 8 is selected by n (R85). -/
theorem decode_alu {w : Word} {op : AluOp} (hf : fieldF w = 0x8#4) (hn : fieldN w = (aluSelector op).toNat) :
    decode w = .instr (op.instr (fieldX w) (fieldY w)) := by
  rw [decode_family8 hf, decodeAlu_selector hn]

/-- Settles O30: each arm is one register write, of a bitwise operation on the operands. -/
theorem assignAndLogicOperations : Obligations.AssignAndLogicOperations := by
  unfold Obligations.AssignAndLogicOperations
  refine ⟨fun w hf => ⟨fun hn => decode_alu (op := .assign) hf hn, fun hn => decode_alu (op := .or) hf hn,
    fun hn => decode_alu (op := .and) hf hn, fun hn => decode_alu (op := .xor) hf hn⟩, fun x y s => ⟨?_, ?_, ?_, ?_⟩⟩
  · exact ⟨_, exec_ldReg x y s, setV_reg_same s x _, setV_onlyRegs s x _⟩
  · exact ⟨_, exec_orReg x y s, fun k _ => by rw [setV_reg_same, BitVec.getLsbD_or], setV_onlyRegs s x _⟩
  · exact ⟨_, exec_andReg x y s, fun k _ => by rw [setV_reg_same, BitVec.getLsbD_and], setV_onlyRegs s x _⟩
  · exact ⟨_, exec_xorReg x y s, fun k _ => by rw [setV_reg_same, BitVec.getLsbD_xor], setV_onlyRegs s x _⟩

/-! ## The random byte (R165) -/

theorem exec_rnd (x : Reg) (nn : Byte) (s : State) :
    exec (.rnd x nn) s = .next ((drawRandom s).2.setV x (Config.randomByte s.rngSeed s.rngDraws &&& nn)) := rfl

/-- Settles O36: one draw, then one register write of the masked byte. -/
theorem randomByteIsMasked : Obligations.RandomByteIsMasked := by
  unfold Obligations.RandomByteIsMasked
  refine ⟨fun w h => decode_familyC h, fun x nn s => ?_⟩
  have masked := setV_reg_same (drawRandom s).2 x (Config.randomByte s.rngSeed s.rngDraws &&& nn)
  refine ⟨_, exec_rnd x nn s, masked, rfl, fun k _ hk => ?_, exec_sameRegs (exec_rnd x nn s), fun _ => rfl, rfl⟩
  rw [masked, BitVec.getLsbD_and, hk, Bool.and_false]

/-! ## Bytes and flags as numbers -/

theorem toNat_sub_eq_emod (a b : Byte) : ((a - b).toNat : Int) = ((a.toNat : Int) - b.toNat) % 256 := by
  have := a.isLt
  have := b.isLt
  rw [BitVec.toNat_sub]
  omega

theorem toNat_shiftRight_one (b : Byte) : (b >>> 1).toNat = b.toNat / 2 := by
  rw [BitVec.toNat_ushiftRight, Nat.shiftRight_eq_div_pow, Nat.pow_one]

theorem toNat_shiftLeft_one (b : Byte) : (b <<< 1).toNat = b.toNat * 2 % 256 := by
  rw [BitVec.toNat_shiftLeft, Nat.shiftLeft_eq, Nat.pow_one]

theorem flagByte_eq_zero_or_one (c : Bool) : flagByte c = 0 ∨ flagByte c = 1 := by
  cases c
  · exact .inl rfl
  · exact .inr rfl

theorem flagByte_decide (p : Prop) [Decidable p] : flagByte (decide p) = if p then 1 else 0 := by
  simp only [flagByte, decide_eq_true_eq]

theorem flagByte_decide_toNat (p : Prop) [Decidable p] : (flagByte (decide p)).toNat = if p then 1 else 0 := by
  rw [flagByte_decide, apply_ite BitVec.toNat]
  rfl

/-- The flag of a subtraction, in a law of integers (R158, R161). -/
theorem flagByte_noBorrow_int (a b : Byte) :
    ((flagByte (noBorrow a b)).toNat : Int) = if a.toNat ≥ b.toNat then 1 else 0 := by
  rw [noBorrow, flagByte_decide_toNat]
  split <;> rfl

@[simp] theorem flagByte_shiftRight_one (c : Bool) : flagByte c >>> 1 = 0 := by
  cases c <;> rfl

theorem flagByte_shiftLeft_one_toNat (c : Bool) : (flagByte c <<< 1).toNat = 2 * (flagByte c).toNat := by
  cases c <;> rfl

/-- The flag of 8xy6 is the low bit (R159). -/
theorem flagByte_bitOutRight_toNat (b : Byte) : (flagByte (bitOutRight b)).toNat = b.toNat % 2 := by
  rw [bitOutRight, BitVec.getLsbD, Nat.testBit_zero, flagByte_decide_toNat]
  split <;> omega

/-- The flag of 8xyE is the high bit (R162). -/
theorem flagByte_bitOutLeft_toNat (b : Byte) : (flagByte (bitOutLeft b)).toNat = b.toNat / 128 := by
  have := b.isLt
  rw [bitOutLeft, BitVec.getLsbD, Nat.testBit_eq_decide_div_mod_eq, flagByte_decide_toNat]
  split <;> omega

/-! ## The flag sequence (R152) -/

theorem exec_addReg (x y : Reg) (s : State) : exec (.addReg x y) s =
    .next (flagThenResult s x (carryOut (s.reg x) (s.reg y)) fun t => t.reg x + t.reg y) := rfl

theorem exec_sub (x y : Reg) (s : State) : exec (.sub x y) s =
    .next (flagThenResult s x (noBorrow (s.reg x) (s.reg y)) fun t => t.reg x - t.reg y) := rfl

theorem exec_subn (x y : Reg) (s : State) : exec (.subn x y) s =
    .next (flagThenResult s x (noBorrow (s.reg y) (s.reg x)) fun t => t.reg y - t.reg x) := rfl

theorem exec_shr (x y : Reg) (s : State) : exec (.shr x y) s =
    .next (flagThenResult s x (bitOutRight (s.reg (shiftReg s x y))) fun t => t.reg (shiftReg s x y) >>> 1) := rfl

theorem exec_shl (x y : Reg) (s : State) : exec (.shl x y) s =
    .next (flagThenResult s x (bitOutLeft (s.reg (shiftReg s x y))) fun t => t.reg (shiftReg s x y) <<< 1) := rfl

theorem shiftReg_eq (s : State) (x y : Reg) : shiftReg s x y = if s.config.shiftSrc = .vx then x else y := by
  unfold shiftReg
  cases s.config.shiftSrc <;> rfl

@[simp] theorem setVF_reg_flag (s : State) (b : Byte) : (s.setVF b).reg 15 = b := setV_reg_same s flagReg b

theorem setVF_reg_other (s : State) (b : Byte) {r : Reg} (h : r ≠ 15) : (s.setVF b).reg r = s.reg r :=
  setV_reg_other s flagReg b r h.symm

/-- The frame of the flag sequence: VF and V[x]. -/
theorem flagThenResult_onlyRegs (s : State) (x : Reg) (c : Bool) (f : State → Byte) :
    OnlyRegs [15, x] s (flagThenResult s x c f) := by
  refine ⟨flagThenResult_sameRegs ⟨c, f, rfl⟩, fun a => ?_, flagThenResult_eq s x c f⟩
  rw [flagThenResult_eq s x c f]

/-- With x = F the frame is VF alone. -/
theorem flagThenResult_onlyRegs_flag (s : State) (c : Bool) (f : State → Byte) :
    OnlyRegs [15] s (flagThenResult s 15 c f) := by
  obtain ⟨regs, frame⟩ := flagThenResult_onlyRegs s 15 c f
  exact ⟨fun r hr => regs r (by simpa using hr), frame⟩

/-- V[x] after the sequence when x is not F: `SEQUENTIAL` reads the registers with the flag written, the snapshot orders
without. -/
theorem flagThenResult_dest (s : State) {x : Reg} (c : Bool) (f : State → Byte) (hx : x ≠ 15) :
    (flagThenResult s x c f).reg x = if s.config.aluOrder = .sequential then f (s.setVF (flagByte c)) else f s := by
  split
  · next ho => exact flagThenResult_sequential s x c f ho
  · next ho => exact flagThenResult_snapshot s x c f hx ho

/-- VF after the sequence when x is F, under the snapshot orders: what is written last remains. -/
theorem flagThenResult_flag_snapshot (s : State) (c : Bool) (f : State → Byte) (ho : s.config.aluOrder ≠ .sequential) :
    (flagThenResult s 15 c f).reg 15 = if s.config.aluOrder = .snapshotFlagFirst then f s else flagByte c := by
  cases hc : s.config.aluOrder with
  | sequential => exact absurd hc ho
  | snapshotFlagFirst => exact flagThenResult_flagFirst s 15 c f hc
  | snapshotFlagLast => exact flagThenResult_flagLast s 15 c f hc

/-! ## Neither x nor the operand is F (R163) -/

/-- Settles O31: where no operand is VF the flag written first is not read, so every order gives the same. -/
theorem addAndSubtractObeyTheirLaws : Obligations.AddAndSubtractObeyTheirLaws := by
  unfold Obligations.AddAndSubtractObeyTheirLaws
  intro x y s hx hy
  refine ⟨⟨_, exec_addReg x y s, ?_, ?_, flagThenResult_onlyRegs s x _ _⟩,
    ⟨_, exec_sub x y s, ?_, ?_, flagThenResult_onlyRegs s x _ _⟩,
    ⟨_, exec_subn x y s, ?_, ?_, flagThenResult_onlyRegs s x _ _⟩⟩
  · rw [flagThenResult_result s x _ _ hx fun b => by rw [setVF_reg_other s b hx, setVF_reg_other s b hy],
      BitVec.toNat_add]
  · exact (flagThenResult_flag s x _ _ hx).trans (flagByte_decide _)
  · rw [flagThenResult_result s x _ _ hx fun b => by rw [setVF_reg_other s b hx, setVF_reg_other s b hy],
      toNat_sub_eq_emod]
  · exact (flagThenResult_flag s x _ _ hx).trans (flagByte_decide _)
  · rw [flagThenResult_result s x _ _ hx fun b => by rw [setVF_reg_other s b hx, setVF_reg_other s b hy],
      toNat_sub_eq_emod]
  · exact (flagThenResult_flag s x _ _ hx).trans (flagByte_decide _)

/-- Settles O32: the shifted register is not VF, so the flag written first is not read. -/
theorem shiftsMoveOneBitOut : Obligations.ShiftsMoveOneBitOut := by
  unfold Obligations.ShiftsMoveOneBitOut
  intro x y z s hz hx hz15
  rw [← shiftReg_eq] at hz
  subst hz
  refine ⟨⟨_, exec_shr x y s, ?_, ?_, flagThenResult_onlyRegs s x _ _⟩,
    ⟨_, exec_shl x y s, ?_, ?_, flagThenResult_onlyRegs s x _ _⟩⟩
  · rw [flagThenResult_result s x _ _ hx fun b => by rw [setVF_reg_other s b hz15], toNat_shiftRight_one]
  · exact (congrArg BitVec.toNat (flagThenResult_flag s x _ _ hx)).trans (flagByte_bitOutRight_toNat _)
  · rw [flagThenResult_result s x _ _ hx fun b => by rw [setVF_reg_other s b hz15], toNat_shiftLeft_one]
  · exact (congrArg BitVec.toNat (flagThenResult_flag s x _ _ hx)).trans (flagByte_bitOutLeft_toNat _)

/-- The frame of the flag sequence, and what it leaves in VF unless V[x] is VF. -/
theorem flagThenResult_frame_flag (s : State) (x : Reg) (c : Bool) (f : State → Byte) :
    OnlyRegs [15, x] s (flagThenResult s x c f) ∧
      (x ≠ 15 → (flagThenResult s x c f).reg 15 = 0 ∨ (flagThenResult s x c f).reg 15 = 1) :=
  ⟨flagThenResult_onlyRegs s x c f, fun hx => flagThenResult_flag s x c f hx ▸ flagByte_eq_zero_or_one c⟩

/-- Settles O35: all five are the flag sequence, which is total. -/
theorem flagOperationsAlwaysComplete : Obligations.FlagOperationsAlwaysComplete := by
  unfold Obligations.FlagOperationsAlwaysComplete
  intro x y s i hi
  simp only [List.mem_cons, List.not_mem_nil, or_false] at hi
  obtain rfl | rfl | rfl | rfl | rfl := hi
  · exact ⟨_, exec_addReg x y s, flagThenResult_frame_flag s x _ _⟩
  · exact ⟨_, exec_sub x y s, flagThenResult_frame_flag s x _ _⟩
  · exact ⟨_, exec_subn x y s, flagThenResult_frame_flag s x _ _⟩
  · exact ⟨_, exec_shr x y s, flagThenResult_frame_flag s x _ _⟩
  · exact ⟨_, exec_shl x y s, flagThenResult_frame_flag s x _ _⟩

end Sys2Proof.Machine
end

section
/-! PROOFS. The flag operations that name VF as an operand, under each order (spec/42_register_alu.md R152, R160, R164,
spec/93_implementation_defined.md part 2). -/

namespace Sys2Proof.Machine

/-! ## SEQUENTIAL: the arithmetic reads the flag just written -/

section
variable {s : State} {z : Reg} (ho : s.config.aluOrder = .sequential)
include ho

theorem addReg_sequential (hz : z ≠ 15) {c : Nat}
    (hc : c = if (s.reg 15).toNat + (s.reg z).toNat > 255 then 1 else 0) :
    (∃ t, exec (.addReg 15 z) s = .next t ∧ (t.reg 15).toNat = (c + (s.reg z).toNat) % 256 ∧ OnlyRegs [15] s t) ∧
    (∃ t, exec (.addReg z 15) s = .next t ∧ (t.reg z).toNat = ((s.reg z).toNat + c) % 256 ∧ (t.reg 15).toNat = c ∧
      OnlyRegs [15, z] s t) := by
  have carry : (flagByte (carryOut (s.reg 15) (s.reg z))).toNat = c := (flagByte_decide_toNat _).trans hc.symm
  have comm : carryOut (s.reg z) (s.reg 15) = carryOut (s.reg 15) (s.reg z) := by simp only [carryOut, Nat.add_comm]
  refine ⟨⟨_, exec_addReg 15 z s, ?_, flagThenResult_onlyRegs_flag s _ _⟩,
    ⟨_, exec_addReg z 15 s, ?_, ?_, flagThenResult_onlyRegs s z _ _⟩⟩
  · rw [flagThenResult_sequential s 15 _ _ ho, setVF_reg_flag, setVF_reg_other s _ hz, BitVec.toNat_add, carry]
  · rw [flagThenResult_sequential s z _ _ ho, setVF_reg_flag, setVF_reg_other s _ hz, BitVec.toNat_add, comm, carry]
  · rw [comm]
    exact (congrArg BitVec.toNat (flagThenResult_flag s z _ _ hz)).trans carry

/-- 8xy5 with x = F and 8xy7 with y = F subtract V[z] from the flag. -/
theorem flag_sub_sequential (hz : z ≠ 15) {c : Int} (hc : c = if (s.reg 15).toNat ≥ (s.reg z).toNat then 1 else 0) :
    (∃ t, exec (.sub 15 z) s = .next t ∧ ((t.reg 15).toNat : Int) = (c - (s.reg z).toNat) % 256 ∧
      OnlyRegs [15] s t) ∧
    (∃ t, exec (.subn z 15) s = .next t ∧ ((t.reg z).toNat : Int) = (c - (s.reg z).toNat) % 256 ∧
      ((t.reg 15).toNat : Int) = c ∧ OnlyRegs [15, z] s t) := by
  have borrow : ((flagByte (noBorrow (s.reg 15) (s.reg z))).toNat : Int) = c :=
    (flagByte_noBorrow_int _ _).trans hc.symm
  refine ⟨⟨_, exec_sub 15 z s, ?_, flagThenResult_onlyRegs_flag s _ _⟩,
    ⟨_, exec_subn z 15 s, ?_, ?_, flagThenResult_onlyRegs s z _ _⟩⟩
  · rw [flagThenResult_sequential s 15 _ _ ho, setVF_reg_flag, setVF_reg_other s _ hz, toNat_sub_eq_emod, borrow]
  · rw [flagThenResult_sequential s z _ _ ho, setVF_reg_flag, setVF_reg_other s _ hz, toNat_sub_eq_emod, borrow]
  · exact (congrArg (fun b : Byte => (b.toNat : Int)) (flagThenResult_flag s z _ _ hz)).trans borrow

/-- 8xy5 with y = F and 8xy7 with x = F subtract the flag from V[z]. -/
theorem sub_flag_sequential (hz : z ≠ 15) {c : Int} (hc : c = if (s.reg z).toNat ≥ (s.reg 15).toNat then 1 else 0) :
    (∃ t, exec (.sub z 15) s = .next t ∧ ((t.reg z).toNat : Int) = ((s.reg z).toNat - c) % 256 ∧
      ((t.reg 15).toNat : Int) = c ∧ OnlyRegs [15, z] s t) ∧
    (∃ t, exec (.subn 15 z) s = .next t ∧ ((t.reg 15).toNat : Int) = ((s.reg z).toNat - c) % 256 ∧
      OnlyRegs [15] s t) := by
  have borrow : ((flagByte (noBorrow (s.reg z) (s.reg 15))).toNat : Int) = c :=
    (flagByte_noBorrow_int _ _).trans hc.symm
  refine ⟨⟨_, exec_sub z 15 s, ?_, ?_, flagThenResult_onlyRegs s z _ _⟩,
    ⟨_, exec_subn 15 z s, ?_, flagThenResult_onlyRegs_flag s _ _⟩⟩
  · rw [flagThenResult_sequential s z _ _ ho, setVF_reg_flag, setVF_reg_other s _ hz, toNat_sub_eq_emod, borrow]
  · exact (congrArg (fun b : Byte => (b.toNat : Int)) (flagThenResult_flag s z _ _ hz)).trans borrow
  · rw [flagThenResult_sequential s 15 _ _ ho, setVF_reg_flag, setVF_reg_other s _ hz, toNat_sub_eq_emod, borrow]

/-- VF doubled reads the carry twice. -/
theorem addReg_flag_flag_sequential : ∃ t, exec (.addReg 15 15) s = .next t ∧
    (t.reg 15).toNat = (if 2 * (s.reg 15).toNat > 255 then 2 else 0) ∧ OnlyRegs [15] s t := by
  refine ⟨_, exec_addReg 15 15 s, ?_, flagThenResult_onlyRegs_flag s _ _⟩
  rw [flagThenResult_sequential s 15 _ _ ho, setVF_reg_flag, BitVec.toNat_add, carryOut, flagByte_decide_toNat, two_mul]
  split <;> rfl

/-- With x = F the shifts read V[z], and with z = F the flag just written. -/
theorem shift_flag_sequential {y : Reg} (hz : shiftReg s 15 y = z) :
    (∃ t, exec (.shr 15 y) s = .next t ∧ OnlyRegs [15] s t ∧
      (t.reg 15).toNat = if z = 15 then 0 else (s.reg z).toNat / 2) ∧
    (∃ t, exec (.shl 15 y) s = .next t ∧ OnlyRegs [15] s t ∧
      (t.reg 15).toNat = if z = 15 then 2 * ((s.reg 15).toNat / 128) else (s.reg z).toNat * 2 % 256) := by
  refine ⟨⟨_, exec_shr 15 y s, flagThenResult_onlyRegs_flag s _ _, ?_⟩,
    ⟨_, exec_shl 15 y s, flagThenResult_onlyRegs_flag s _ _, ?_⟩⟩
  · rw [flagThenResult_sequential s 15 _ _ ho, hz]
    split
    · next h => subst h; rw [setVF_reg_flag, flagByte_shiftRight_one]; rfl
    · next h => rw [setVF_reg_other s _ h, toNat_shiftRight_one]
  · rw [flagThenResult_sequential s 15 _ _ ho, hz]
    split
    · next h => subst h; rw [setVF_reg_flag, flagByte_shiftLeft_one_toNat, flagByte_bitOutLeft_toNat]
    · next h => rw [setVF_reg_other s _ h, toNat_shiftLeft_one]

end

/-- Settles O33: under this order V[x] is the arithmetic of the registers in which VF already holds the flag. -/
theorem aliasedOperationsUnderSequential : Obligations.AliasedOperationsUnderSequential := by
  unfold Obligations.AliasedOperationsUnderSequential
  intro z s ho hz
  refine ⟨fun c hc => addReg_sequential ho hz hc, addReg_flag_flag_sequential ho,
    fun c hc => flag_sub_sequential ho hz hc, fun c hc => sub_flag_sequential ho hz hc, ?_, ?_, fun hv y => ?_⟩
  · refine ⟨_, exec_sub 15 15 s, ?_, flagThenResult_onlyRegs_flag s _ _⟩
    rw [flagThenResult_sequential s 15 _ _ ho, BitVec.sub_self]
    rfl
  · refine ⟨_, exec_subn 15 15 s, ?_, flagThenResult_onlyRegs_flag s _ _⟩
    rw [flagThenResult_sequential s 15 _ _ ho, BitVec.sub_self]
    rfl
  · have source : shiftReg s 15 y = 15 := by rw [shiftReg_eq, if_pos hv]
    obtain ⟨⟨t, ht, frame, right⟩, ⟨u, hu, frame', left⟩⟩ := shift_flag_sequential ho source
    exact ⟨⟨t, ht, BitVec.eq_of_toNat_eq right, frame⟩, ⟨u, hu, left, frame'⟩⟩

/-! ## The snapshot orders: the arithmetic reads the registers as they were -/

section
variable {s : State} (ho : s.config.aluOrder ≠ .sequential)
include ho

/-- VF after the sequence with x = F, as a number. -/
theorem flagThenResult_flag_snapshot_toNat (c : Bool) (f : State → Byte) {result flag : Nat}
    (hr : (f s).toNat = result) (hf : (flagByte c).toNat = flag) : ((flagThenResult s 15 c f).reg 15).toNat =
      if s.config.aluOrder = .snapshotFlagFirst then result else flag := by
  rw [flagThenResult_flag_snapshot s c f ho, apply_ite BitVec.toNat, hr, hf]

/-- The same for a difference, whose law is one of integers. -/
theorem flagThenResult_flag_snapshot_int (c : Bool) (f : State → Byte) {result flag : Int}
    (hr : ((f s).toNat : Int) = result) (hf : ((flagByte c).toNat : Int) = flag) :
    (((flagThenResult s 15 c f).reg 15).toNat : Int) =
      if s.config.aluOrder = .snapshotFlagFirst then result else flag := by
  rw [flagThenResult_flag_snapshot s c f ho, apply_ite BitVec.toNat, Nat.cast_ite, hr, hf]

end

/-- Settles O34: with x = F the order decides whether result or flag is written last, and with y = F the result reads the
old VF. -/
theorem aliasedOperationsUnderSnapshots : Obligations.AliasedOperationsUnderSnapshots := by
  unfold Obligations.AliasedOperationsUnderSnapshots
  intro y z s ho hz
  rw [← shiftReg_eq] at hz
  subst hz
  refine ⟨⟨_, exec_addReg 15 y s, flagThenResult_onlyRegs_flag s _ _, ?_⟩,
    ⟨_, exec_sub 15 y s, flagThenResult_onlyRegs_flag s _ _, ?_⟩,
    ⟨_, exec_subn 15 y s, flagThenResult_onlyRegs_flag s _ _, ?_⟩,
    ⟨_, exec_shr 15 y s, flagThenResult_onlyRegs_flag s _ _, ?_⟩,
    ⟨_, exec_shl 15 y s, flagThenResult_onlyRegs_flag s _ _, ?_⟩, fun x hx => ⟨?_, ?_, ?_⟩⟩
  · exact flagThenResult_flag_snapshot_toNat ho _ _ (BitVec.toNat_add _ _) (flagByte_decide_toNat _)
  · exact flagThenResult_flag_snapshot_int ho _ _ (toNat_sub_eq_emod _ _) (flagByte_noBorrow_int _ _)
  · exact flagThenResult_flag_snapshot_int ho _ _ (toNat_sub_eq_emod _ _) (flagByte_noBorrow_int _ _)
  · exact flagThenResult_flag_snapshot_toNat ho _ _ (toNat_shiftRight_one _) (flagByte_bitOutRight_toNat _)
  · exact flagThenResult_flag_snapshot_toNat ho _ _ (toNat_shiftLeft_one _) (flagByte_bitOutLeft_toNat _)
  · refine ⟨_, exec_addReg x 15 s, flagThenResult_onlyRegs s x _ _, ?_,
      (flagThenResult_flag s x _ _ hx).trans (flagByte_decide _)⟩
    rw [flagThenResult_snapshot s x _ _ hx ho, BitVec.toNat_add]
  · refine ⟨_, exec_sub x 15 s, flagThenResult_onlyRegs s x _ _, ?_,
      (flagThenResult_flag s x _ _ hx).trans (flagByte_decide _)⟩
    rw [flagThenResult_snapshot s x _ _ hx ho, toNat_sub_eq_emod]
  · refine ⟨_, exec_subn x 15 s, flagThenResult_onlyRegs s x _ _, ?_,
      (flagThenResult_flag s x _ _ hx).trans (flagByte_decide _)⟩
    rw [flagThenResult_snapshot s x _ _ hx ho, toNat_sub_eq_emod]

/-! ## The shifts of VF into another register (R160) -/

/-- With VF the shifted register and x another one, `SEQUENTIAL` shifts the flag just written and the snapshot orders the
old VF. -/
theorem shift_of_flag {x y : Reg} {s : State} (hz : shiftReg s x y = 15) (hx : x ≠ 15) :
    (∃ t, exec (.shr x y) s = .next t ∧ OnlyRegs [15, x] s t ∧ (t.reg 15).toNat = (s.reg 15).toNat % 2 ∧
      (t.reg x).toNat = if s.config.aluOrder = .sequential then 0 else (s.reg 15).toNat / 2) ∧
    (∃ t, exec (.shl x y) s = .next t ∧ OnlyRegs [15, x] s t ∧ (t.reg 15).toNat = (s.reg 15).toNat / 128 ∧
      (t.reg x).toNat = if s.config.aluOrder = .sequential then 2 * ((s.reg 15).toNat / 128)
        else (s.reg 15).toNat * 2 % 256) := by
  refine ⟨⟨_, exec_shr x y s, flagThenResult_onlyRegs s x _ _, ?_, ?_⟩,
    ⟨_, exec_shl x y s, flagThenResult_onlyRegs s x _ _, ?_, ?_⟩⟩
  · rw [hz]
    exact (congrArg BitVec.toNat (flagThenResult_flag s x _ _ hx)).trans (flagByte_bitOutRight_toNat _)
  · rw [flagThenResult_dest s _ _ hx, hz, setVF_reg_flag, flagByte_shiftRight_one, apply_ite BitVec.toNat,
      toNat_shiftRight_one]
    rfl
  · rw [hz]
    exact (congrArg BitVec.toNat (flagThenResult_flag s x _ _ hx)).trans (flagByte_bitOutLeft_toNat _)
  · rw [flagThenResult_dest s _ _ hx, hz, setVF_reg_flag, apply_ite BitVec.toNat, flagByte_shiftLeft_one_toNat,
      flagByte_bitOutLeft_toNat, toNat_shiftLeft_one]

/-- Settles O60: under SHIFT_SRC = VY with y = F the shifted register is VF, and with x = F it is `z`. -/
theorem shiftsThatNameTheFlagRegister : Obligations.ShiftsThatNameTheFlagRegister := by
  unfold Obligations.ShiftsThatNameTheFlagRegister
  refine ⟨fun x s hv hx => shift_of_flag ?_ hx, fun y z s ho hz => shift_flag_sequential ho ?_⟩
  · rw [shiftReg_eq, hv, if_neg nofun]
  · rw [shiftReg_eq, hz]

end Sys2Proof.Machine
end

section
/-! PROOFS. Index arithmetic and the register stores and loads (spec/43_index_memory.md R181 to R186). -/

namespace Sys2Proof.Machine

/-! ## ADD I, Vx and LD F, Vx (R181, R182) -/

theorem exec_addIX (x : Reg) (s : State) : exec (.addIX x) s = .next (s.setI (s.i + zextByte (s.reg x))) := rfl

theorem exec_ldFX (x : Reg) (s : State) : exec (.ldFX x) s = .next (s.setI (glyphAddress (s.reg x))) := rfl

theorem zextByte_toNat (b : Byte) : (zextByte b).toNat = b.toNat :=
  BitVec.toNat_setWidth_of_le (by decide)

/-- The last glyph address is 0x50 + 5 * 0xFF, far below 2^16. -/
theorem glyphAddress_toNat (b : Byte) : (glyphAddress b).toNat = 0x50 + 5 * b.toNat := by
  have := b.isLt
  rw [glyphAddress, BitVec.toNat_ofNat]
  exact Nat.mod_eq_of_lt (by show 0x50 + 5 * b.toNat < 65536; omega)

/-- Settles O38: both arms write I alone. -/
theorem indexArithmeticWritesOnlyTheIndex : Obligations.IndexArithmeticWritesOnlyTheIndex := by
  unfold Obligations.IndexArithmeticWritesOnlyTheIndex
  refine fun x s => ⟨⟨_, exec_addIX x s, ?_, rfl⟩, ⟨_, exec_ldFX x s, glyphAddress_toNat _, rfl⟩⟩
  rw [setI_i, BitVec.toNat_add, zextByte_toNat]

/-! ## LD [I], Vx (R184) -/

theorem exec_stRegs_ok (x : Reg) {s : State} (h : s.i.toNat + x.val < 4096) :
    exec (.stRegs x) s = .next (s.setMem (Memory.writeAll (regsUpTo s x) s.i.toNat s.mem)) := execStRegs_ok x s h

theorem exec_stRegs_oob (x : Reg) {s : State} (h : 4096 ≤ s.i.toNat + x.val) :
    exec (.stRegs x) s = .fault (.memOob (max s.i.toNat 4096) .write (some s.pcFetch)) := by
  have stored := regsUpTo_length s x
  have stopped := storeBytes_oob (some s.pcFetch) (regsUpTo s x) s.i.toNat s
    (List.ne_nil_of_length_pos (by omega)) (by omega)
  exact congrArg complete stopped

/-- Register `k` of those stored is read back at I + k. -/
theorem read_writeAll_regsUpTo {s : State} {x k : Reg} (hm : s.mem.wf = true) (h : s.i.toNat + x.val < 4096)
    (hk : k.val ≤ x.val) :
    (Memory.writeAll (regsUpTo s x) s.i.toNat s.mem).read (s.i.toNat + k.val) = s.reg k := by
  have stored := regsUpTo_length s x
  rw [Memory.read_writeAll_inside (regsUpTo s x) s.i.toNat hm (by omega) k.val (by omega), regsUpTo_get]

/-- Settles O40: Fx55 is one run of writes of V[0] to V[x] from I on. -/
theorem registersAreStoredFromTheIndex : Obligations.RegistersAreStoredFromTheIndex := by
  unfold Obligations.RegistersAreStoredFromTheIndex
  refine fun x s hm => ⟨fun h => ?_, exec_stRegs_oob x⟩
  have frame := setMem_writeAll_sameMemoryOutside (regsUpTo s x) s.i.toNat s
  rw [regsUpTo_length] at frame
  exact ⟨_, exec_stRegs_ok x h, fun k hk => read_writeAll_regsUpTo hm h hk, frame, rfl⟩

/-! ## LD Vx, [I] (R185) -/

theorem exec_ldRegs_ok (x : Reg) {s : State} (h : s.i.toNat + x.val < 4096) :
    exec (.ldRegs x) s = .next (loadRegs s ((List.range' s.i.toNat (x.val + 1)).map s.mem.read)) := execLdRegs_ok x s h

/-- Register `k` is loaded from I + k when it is in range, and keeps its value above. -/
theorem loadRegs_range_reg (s : State) (x k : Reg) :
    (loadRegs s ((List.range' s.i.toNat (x.val + 1)).map s.mem.read)).reg k =
      if k.val ≤ x.val then s.mem.read (s.i.toNat + k.val) else s.reg k := by
  split
  · next hk => simp [loadRegs_reg, show k.val < x.val + 1 by omega]
  · next hk => exact loadRegs_reg_above (by rw [List.length_map, List.length_range']; omega)

/-- Settles O41: Fx65 is one run of reads from I on into V[0] to V[x]. -/
theorem registersAreLoadedFromTheIndex : Obligations.RegistersAreLoadedFromTheIndex := by
  unfold Obligations.RegistersAreLoadedFromTheIndex
  refine fun x s => ⟨fun h => ?_, execLdRegs_oob x s⟩
  exact ⟨_, exec_ldRegs_ok x h, loadRegs_range_reg s x, fun _ => rfl, rfl⟩

/-- Settles O42: the load reads each byte where the store put it, and nothing in between wrote it. -/
theorem storeThenLoadGivesTheRegistersBack : Obligations.StoreThenLoadGivesTheRegistersBack := by
  unfold Obligations.StoreThenLoadGivesTheRegistersBack
  refine fun x s hm h => ⟨_, exec_stRegs_ok x h, fun t' hi kept => ?_⟩
  refine ⟨_, exec_ldRegs_ok x (by rw [hi]; exact h), fun k hk => ?_⟩
  rw [loadRegs_range_reg, if_pos hk, hi, kept k.val hk]
  exact read_writeAll_regsUpTo hm h hk

end Sys2Proof.Machine
end

section
/-! PROOFS. The framebuffer instructions (spec/44_display.md R200 to R207). -/

namespace Sys2Proof.Machine

/-! ## CLS (R200) -/

theorem exec_cls (s : State) : exec .cls s = .next ((s.setFb 0).setDirty true) := rfl

/-- Neither family that ignores its low nibble decodes to CLS, so the word is the encoding. -/
theorem decode_eq_cls_iff (w : Word) : decode w = .instr .cls ↔ w = 0x00E0#16 := by
  constructor
  · intro h
    have not5 : fieldF w ≠ 0x5#4 := fun f => by rw [decode_family5 f] at h; cases h
    have not9 : fieldF w ≠ 0x9#4 := fun f => by rw [decode_family9 f] at h; cases h
    obtain ⟨-, enc⟩ := encode_of_decode h not5 not9
    exact enc.symm
  · rintro rfl
    rfl

/-- Settles O43: only that word decodes to CLS, and CLS writes FB and DIRTY alone. -/
theorem clearUnlightsEveryPixel : Obligations.ClearUnlightsEveryPixel := by
  unfold Obligations.ClearUnlightsEveryPixel
  refine ⟨decode_eq_cls_iff, fun s => ⟨_, exec_cls s, fun l _ => ?_, rfl, rfl⟩⟩
  rw [setDirty_pixel, setFb_pixel]
  exact BitVec.getLsbD_zero

/-! ## DRW on a sprite that can be drawn (R201 to R206) -/

/-- What a draw that completes leaves: from VF reset, the pixels the sprite hits toggled. -/
theorem exec_drw_toggled {x y : Reg} {n : Nat} {s : State} (hn : n ≤ 15) (h : drawable s x y n) :
    ∃ t, exec (.drw x y n) s = .next t ∧ Toggled (spriteHits s x y n) (s.setVF 0) t := by
  obtain ⟨t, -, rows, drawn⟩ := execDrw_ok x y n s h
  obtain ⟨pixel, lit, unlit⟩ := drawRows_spriteHits hn rows
  exact ⟨_, drawn, pixel, lit, unlit⟩

/-- Settles O44: the pixels and VF by `Toggled`, and the rest by the frame of Dxyn. -/
theorem drawTogglesExactlyTheSpritesPixels : Obligations.DrawTogglesExactlyTheSpritesPixels := by
  unfold Obligations.DrawTogglesExactlyTheSpritesPixels
  intro x y n s hn h
  obtain ⟨t, ht, pixel, lit, unlit⟩ := exec_drw_toggled hn h
  refine ⟨t, ht, pixel, lit, fun none => (unlit none).trans (setVF_reg_flag s 0),
    exec_sets_dirty ht (.inr ⟨x, y, n, rfl⟩), exec_sameRegs ht, fun a => ?_, exec_overlay ht⟩
  rw [exec_mem ht nofun nofun]

/-! ## The first fault condition (R205, R254) -/

/-- A row that can be drawn, in the terms of the drawing operations. -/
theorem rowDrawable_place {s : State} {x y : Reg} {r cols : Nat} (h : rowDrawable s x y r cols) :
    s.i.toNat + r < 4096 ∧ ∀ c < cols, spriteBit (s.mem.read (s.i.toNat + r)) c = true →
      place s.config.edgeMode (originX s x + c) (originY s y + r) ≠ .outside := by
  simpa only [rowDrawable, spriteAt_eq, spritePlace_eq] using h

/-- A range up to `n`, cut at an index `k` below it. -/
theorem range_cut {k n : Nat} (h : k < n) : List.range n = List.range k ++ k :: List.range' (k + 1) (n - k - 1) := by
  obtain ⟨d, rfl⟩ : ∃ d, n = k + (d + 1) := ⟨n - k - 1, by omega⟩
  rw [List.range_eq_range', List.range_eq_range', ← List.range'_append_1, Nat.zero_add, List.range'_succ]
  congr 3
  omega

/-- Once the rows before `r` are drawn, the draw faults as it faults from row `r` on. -/
theorem exec_drw_fault {x y : Reg} {n r : Nat} {s : State} {f : Fault} (hr : r < n)
    (before : ∀ q < r, rowDrawable s x y q 8)
    (fault : ∀ t, DrawnFrom (s.setVF 0) t → ∀ rs, drawRows (originX s x) (originY s y) (r :: rs) t = .error f) :
    exec (.drw x y n) s = .fault f := by
  obtain ⟨t, ht, rows⟩ := drawRows_append_ok (s := s.setVF 0) (ox := originX s x) (oy := originY s y)
    (rs := List.range r) (r :: List.range' (r + 1) (n - r - 1))
    fun q hq => by
      obtain ⟨inside, cols⟩ := rowDrawable_place (before q (List.mem_range.mp hq))
      exact ⟨inside, cols⟩
  rw [← range_cut hr, fault t ht] at rows
  show execDrw x y n s = .fault f
  simp only [execDrw, rows, complete_error]

/-- Once the columns before `c` are drawn, a set bit placed outside faults the row. -/
theorem drawCols_fault {row : Byte} {ox y c : Nat} {s : State} (hc : c < 8) (hb : spriteBit row c = true)
    (hp : place s.config.edgeMode (ox + c) y = .outside)
    (before : ∀ d < c, spriteBit row d = true → place s.config.edgeMode (ox + d) y ≠ .outside) :
    drawCols row ox y (List.range 8) s = .error (.drawRange (ox + c) y s.pcFetch) := by
  rw [range_cut hc]
  obtain ⟨t, ht, cols⟩ := drawCols_append_ok (cs := List.range c) (c :: List.range' (c + 1) (8 - c - 1))
    fun d hd => before d (List.mem_range.mp hd)
  rw [cols]
  simp only [drawCols, hb, if_true, drawBit, ht.config, hp, ht.pcFetch, raise]

/-- Settles O45: the rows, and in the faulting row the columns, before the first condition are drawn. -/
theorem drawFaultsAtTheFirstCondition : Obligations.DrawFaultsAtTheFirstCondition := by
  unfold Obligations.DrawFaultsAtTheFirstCondition
  intro x y n r s hr before
  refine ⟨fun outside => exec_drw_fault hr before fun t ht rs => ?_,
    fun c hc row set placed => exec_drw_fault hr before fun t ht rs => ?_⟩
  · have row := memRead_oob t .read t.pcFetch (a := t.i.toNat + r) (by rw [ht.i]; exact outside)
    simp only [drawRows, row]
    rw [ht.i, ht.pcFetch]
    rfl
  · obtain ⟨inside, cols⟩ := rowDrawable_place row
    rw [spriteAt_eq] at set
    rw [spritePlace_eq] at placed
    have stopped := drawCols_fault (s := t) (row := t.mem.read (t.i.toNat + r)) (ox := originX s x)
      (y := originY s y + r) hc (by rw [ht.mem, ht.i]; exact set) (by rw [ht.config]; exact placed)
      (by rw [ht.config, ht.mem, ht.i]; exact cols)
    have fetched := memRead_ok t .read t.pcFetch (a := t.i.toNat + r) (by rw [ht.i]; exact inside)
    simp only [drawRows, fetched, stopped]
    rw [ht.pcFetch]
    rfl

end Sys2Proof.Machine
end

section
/-! PROOFS. Drawing the same sprite twice (spec/44_display.md R207). -/

namespace Sys2Proof.Machine

/-! ## A draw that completed could be drawn -/

theorem drawBit_placed {s t : State} {x y : Nat} (h : drawBit s x y = .ok t) :
    place s.config.edgeMode x y ≠ .outside := by
  obtain ⟨p, hp, -⟩ | ⟨hp, -⟩ := drawBit_cases h <;> rw [hp] <;> nofun

theorem drawCols_placed {row : Byte} {ox y : Nat} {cs : List Nat} {s t : State}
    (h : drawCols row ox y cs s = .ok t) :
    ∀ c ∈ cs, spriteBit row c = true → place s.config.edgeMode (ox + c) y ≠ .outside := by
  induction cs generalizing s with
  | nil => nofun
  | cons c cs ih =>
    simp only [drawCols] at h
    split at h
    · split at h
      · cases h
      · next s' hs =>
        have rest := ih h
        rw [(drawBit_drawnFrom hs).config] at rest
        exact List.forall_mem_cons.mpr ⟨fun _ => drawBit_placed hs, rest⟩
    · next hb => exact List.forall_mem_cons.mpr ⟨fun set => absurd set hb, ih h⟩

theorem drawRows_placed {ox oy : Nat} {rs : List Nat} {s t : State} (h : drawRows ox oy rs s = .ok t) :
    ∀ r ∈ rs, s.i.toNat + r < 4096 ∧ ∀ c < 8, spriteBit (s.mem.read (s.i.toNat + r)) c = true →
      place s.config.edgeMode (ox + c) (oy + r) ≠ .outside := by
  induction rs generalizing s with
  | nil => nofun
  | cons r rs ih =>
    by_cases inside : s.i.toNat + r < 4096
    · simp only [drawRows, memRead_ok s .read s.pcFetch inside] at h
      split at h
      · cases h
      · next s' hs =>
        have rest := ih h
        have d := drawCols_drawnFrom hs
        rw [d.config, d.mem, d.i] at rest
        exact List.forall_mem_cons.mpr
          ⟨⟨inside, fun c hc => drawCols_placed hs c (List.mem_range.mpr hc)⟩, rest⟩
    · simp only [drawRows, memRead_oob s .read s.pcFetch (Nat.not_lt.mp inside)] at h
      cases h

theorem drawable_of_exec_drw {x y : Reg} {n : Nat} {s t : State} (h : exec (.drw x y n) s = .next t) :
    drawable s x y n := by
  have completed := complete_next h
  split at completed
  · cases completed
  · next s' hs =>
    intro r hr
    obtain ⟨inside, cols⟩ := drawRows_placed hs r (List.mem_range.mpr hr)
    simp only [rowDrawable, spriteAt_eq, spritePlace_eq]
    exact ⟨inside, cols⟩

/-! ## The second draw meets the same sprite -/

/-- What Dxyn reads of the sprite and its place is the same in both states. -/
structure SameSprite (x y : Reg) (s t : State) : Prop where
  config : t.config = s.config
  mem : t.mem = s.mem
  i : t.i = s.i
  originX : (t.reg x).toNat % 64 = (s.reg x).toNat % 64
  originY : (t.reg y).toNat % 32 = (s.reg y).toNat % 32

namespace SameSprite
variable {x y : Reg} {s t : State} (h : SameSprite x y s t)
include h

theorem at_eq (r c : Nat) : spriteAt t r c = spriteAt s r c := by
  rw [spriteAt, h.mem, h.i, spriteAt]

theorem place_eq (r c : Nat) : spritePlace t x y r c = spritePlace s x y r c := by
  rw [spritePlace, h.config, h.originX, h.originY, spritePlace]

theorem drawable_iff (n : Nat) : drawable t x y n ↔ drawable s x y n := by
  simp only [drawable, rowDrawable, h.at_eq, h.place_eq, h.i]

theorem hits_iff (n l : Nat) : spriteHits t x y n l ↔ spriteHits s x y n l := by
  simp only [spriteHits, h.at_eq, h.place_eq]

end SameSprite

/-- Dxyn changes only registers, FB and DIRTY, so what is left to ask of a second draw is the origin. -/
theorem sameSprite_of_exec_drw {x y : Reg} {n : Nat} {s t : State} (h : exec (.drw x y n) s = .next t)
    (hx : (t.reg x).toNat % 64 = (s.reg x).toNat % 64) (hy : (t.reg y).toNat % 32 = (s.reg y).toNat % 32) :
    SameSprite x y s t := by
  obtain ⟨-, config, -⟩ := exec_unwritten h
  exact ⟨config, exec_mem h nofun nofun, exec_i h nofun nofun nofun, hx, hy⟩

/-! ## Toggling twice -/

/-- A second toggle of the same pixels gives the first framebuffer back. -/
theorem fb_eq_of_toggled_twice {hit : Nat → Prop} {s t u : State}
    (h : ∀ l < 2048, (t.pixel l ≠ s.pixel l ↔ hit l)) (k : ∀ l < 2048, (u.pixel l ≠ t.pixel l ↔ hit l)) :
    u.fb = s.fb := by
  apply BitVec.eq_of_getLsbD_eq
  intro l hl
  have first := h l hl
  have second := k l hl
  rw [← first] at second
  show u.pixel l = s.pixel l
  revert second
  cases s.pixel l <;> cases t.pixel l <;> cases u.pixel l <;> simp

/-- The pixels lit after a toggle are, among those toggled, the ones unlit before. -/
theorem lit_after_iff_unlit_before {hit : Nat → Prop} {s t : State} (h : Toggled hit s t) :
    (∃ l < 2048, hit l ∧ t.pixel l = true) ↔ ∃ l < 2048, hit l ∧ s.pixel l = false := by
  refine exists_congr fun l => and_congr_right fun hl => and_congr_right fun toggled => ?_
  have flipped := (h.pixel l hl).mpr toggled
  revert flipped
  cases s.pixel l <;> cases t.pixel l <;> simp

/-- Settles O46: the second draw toggles the pixels of the first, so the pixels it finds lit are those the first found
unlit. -/
theorem drawingTwiceCancels : Obligations.DrawingTwiceCancels := by
  unfold Obligations.DrawingTwiceCancels
  intro x y n s t hn ht hx hy
  have possible := drawable_of_exec_drw ht
  have same := sameSprite_of_exec_drw ht hx hy
  obtain ⟨t', ht', first⟩ := exec_drw_toggled hn possible
  obtain rfl : t = t' := Host.Outcome.next.inj (ht.symm.trans ht')
  obtain ⟨u, hu, second⟩ := exec_drw_toggled hn ((same.drawable_iff n).mpr possible)
  have second : Toggled (spriteHits s x y n) (t.setVF 0) u := second.congr (same.hits_iff n)
  have lit := lit_after_iff_unlit_before first
  refine ⟨u, hu, fb_eq_of_toggled_twice first.pixel second.pixel, fun unlit => ?_, fun none => ?_⟩
  · exact second.lit (lit.mpr unlit)
  · exact (second.unlit fun some => none (lit.mp some)).trans (setVF_reg_flag t 0)

end Sys2Proof.Machine
end

section
/-! PROOFS. Key instructions (spec/45_timers_keys.md R230, R231, R233), the host's operations (spec/60_exceptions.md R262 to
R278) and construction (spec/70_reset_and_hazards.md R290 to R294). -/

namespace Sys2Proof.Machine

/-! ## Key instructions -/

/-- Settles O47: a key in range makes both arms a `skipIf` on its state, any other value faults. -/
theorem keySkipsReadTheKey : Obligations.KeySkipsReadTheKey := by
  unfold Obligations.KeySkipsReadTheKey
  refine fun x s => ⟨fun k hk => ?_, fun outside => ?_⟩
  · have inRange : (s.reg x).toNat < 16 := hk ▸ k.isLt
    have skp : exec (.skp x) s = .next (s.skipIf s.keys[(s.reg x).toNat]) := execSkp_ok x s inRange
    have sknp : exec (.sknp x) s = .next (s.skipIf !s.keys[(s.reg x).toNat]) := execSknp_ok x s inRange
    simp only [hk] at skp sknp
    rw [skp, sknp]
    cases s.keys[k.val] <;> exact ⟨rfl, rfl⟩
  · exact ⟨execSkp_range x s (Nat.not_lt.mpr outside), execSknp_range x s (Nat.not_lt.mpr outside)⟩

/-- Settles O49: the arm of Fx0A is `startWait`. -/
theorem keyWaitTargetsX : Obligations.KeyWaitTargetsX := by
  unfold Obligations.KeyWaitTargetsX
  exact fun x s => rfl

/-! ## Key events and frames -/

theorem keyEvent_outOfRange {k : Int} (pressed : Bool) (s : State) (h : k < 0 ∨ 16 ≤ k) :
    keyEvent k pressed s = (s, s.wait) := by
  rw [keyEvent, dif_neg (by omega)]

theorem keyEventInRange_press_waiting (k : Fin 16) {s : State} (h : s.wait = true) :
    keyEventInRange k true s = ((s.setKey k true).setV s.waitReg (BitVec.ofNat 8 k.val)).endWait := by
  rw [keyEventInRange, h]
  rfl

theorem keyEventInRange_not_waiting (k : Fin 16) (pressed : Bool) {s : State} (h : s.wait = false) :
    keyEventInRange k pressed s = s.setKey k pressed := by
  rw [keyEventInRange, h, Bool.and_false]
  rfl

/-- Settles O53: the two branches of a press, and the guard on the index. -/
theorem keyPressResolvesTheWait : Obligations.KeyPressResolvesTheWait := by
  unfold Obligations.KeyPressResolvesTheWait
  refine ⟨fun k s h => ?_, fun k s h => ?_, fun k pressed s h => keyEvent_outOfRange pressed s h⟩
  · rw [keyEvent_inRange, keyEventInRange_press_waiting k h]
    rfl
  · rw [keyEvent_inRange, keyEventInRange_not_waiting k true h]
    exact congrArg (Prod.mk _) h

/-- Settles O54: CLS leaves an unlit buffer marked dirty, and consuming a frame clears the mark. -/
theorem clearedFrameIsDirtyExactlyOnce : Obligations.ClearedFrameIsDirtyExactlyOnce := by
  unfold Obligations.ClearedFrameIsDirtyExactlyOnce
  refine ⟨fun s => rfl, fun s t h => ?_⟩
  obtain rfl : t = (s.setFb 0).setDirty true := exec_effect h
  exact ⟨rfl, rfl⟩

/-! ## Ticks (R264) -/

/-- Settles O51: by induction on the ticks, each of which is one truncated subtraction. -/
theorem ticksCountDownToZero : Obligations.TicksCountDownToZero := by
  unfold Obligations.TicksCountDownToZero
  intro k
  induction k with
  | zero => exact fun s => ⟨rfl, rfl⟩
  | succ k ih =>
    intro s
    obtain ⟨dt, st⟩ := ih (tickTimers s)
    rw [Function.iterate_succ_apply, dt, st, tickTimers_dt_toNat, tickTimers_st_toNat]
    omega

/-! ## Load (R293) -/

theorem load_ok {image : List Byte} (s : State) (h : image.length ≤ 3584) :
    load image s = .ok (s.setMem (Memory.writeAll image 0x200 s.mem)) :=
  storeBytes_ok none image 0x200 s (.inr (by omega))

theorem load_oob {image : List Byte} (s : State) (h : 3584 < image.length) :
    load image s = .error (.memOob 0x1000 .write none) :=
  storeBytes_oob none image 0x200 s (List.ne_nil_of_length_pos (by omega)) (by omega)

/-- Settles O55: a load is one run of writes from 0x200 on, and 3584 bytes are left from there to the end of memory. -/
theorem loadCopiesTheImage : Obligations.LoadCopiesTheImage := by
  unfold Obligations.LoadCopiesTheImage
  refine fun image s hm => ⟨fun h => ?_, load_oob s⟩
  have copied (k : Fin image.length) : (Memory.writeAll image 0x200 s.mem).read (0x200 + k.val) = image[k] :=
    Memory.read_writeAll_inside image 0x200 hm (by omega) k.val k.isLt
  exact ⟨_, load_ok s h, copied, setMem_writeAll_sameMemoryOutside image 0x200 s, rfl⟩

/-! ## Reset and construction (R38, R290 to R292) -/

theorem reset_stack (k : Fin 16) : State.reset.stack[k.val] = 0 := Vector.getElem_replicate k.isLt

/-- Any canonical memory completes the reset state to one that meets the invariant. -/
theorem inv_of_reset {s : State} (hm : s.mem.wf = true) (hs : s = { State.reset with
    config := s.config, rngSeed := s.rngSeed, mem := s.mem }) : s.Inv := by
  rw [hs]
  refine ⟨hm, show State.reset.pc.toNat ≤ 0x10FE by decide, fun k => ?_, rfl⟩
  show State.reset.stack[k.val].toNat ≤ 0x1000
  rw [reset_stack]
  exact Nat.zero_le _

/-- Settles O11: reset memory lists nothing, and the registers are small constants. -/
theorem resetMeetsTheInvariant : Obligations.ResetMeetsTheInvariant := inv_of_reset Memory.nil_wf rfl

theorem reset_pixel (l : Nat) : State.reset.pixel l = false := by
  rw [State.pixel, State.reset]
  exact BitVec.getLsbD_zero

/-- Settles O57: each field by its definition, the register file, stack, keys and pixels cell by cell. -/
theorem resetValuesAreTheSpecs : Obligations.ResetValuesAreTheSpecs := by
  unfold Obligations.ResetValuesAreTheSpecs
  exact ⟨fun r => Vector.getElem_replicate r.isLt, rfl, rfl, rfl, reset_stack, rfl, rfl, fun l _ => reset_pixel l,
    rfl, fun k => Vector.getElem_replicate k.isLt, rfl, rfl, rfl⟩

theorem construct_mem (a : ConstructArgs) :
    (construct a).mem = Memory.ofContents (contentsAt a.font.toList a.initFill) := by
  unfold construct
  with_reducible rfl

/-- Memory apart, construction gives the reset state with its arguments. -/
theorem construct_frame (a : ConstructArgs) :
    construct a = { State.reset with config := a.params, rngSeed := a.rngSeed, mem := (construct a).mem } := by
  rw [construct_mem, construct]

theorem construct_mem_read (a : ConstructArgs) {c : Nat} (h : c < 0x1000) :
    (construct a).mem.read c = contentsAt a.font.toList a.initFill c := by
  rw [construct_mem, Memory.ofContents_read, if_pos h]

theorem contentsAt_font (font : Vector Byte 80) (fill : Nat → Byte) {j : Nat} (h : j < 80) :
    contentsAt font.toList fill (0x50 + j) = font.toList.getD j 0 := by
  have inside : 0x50 ≤ 0x50 + j ∧ 0x50 + j < 0x50 + 16 * 5 := by omega
  rw [contentsAt, if_pos inside, Nat.add_sub_cancel_left]
  simp [h]

theorem contentsAt_fill (font : List Byte) (fill : Nat → Byte) {c : Nat} (h : c < 0x50 ∨ 0xA0 ≤ c) :
    contentsAt font fill c = fill c :=
  if_neg (show ¬ (0x50 ≤ c ∧ c < 0x50 + 16 * 5) by omega)

/-- With the defaults no cell differs from the reset contents. -/
theorem construct_default : construct ConstructArgs.default = State.reset := by
  have nothingListed : (construct ConstructArgs.default).mem = [] := by
    rw [construct_mem, ConstructArgs.default, Vector.toList_mk]
    exact Memory.ofContents_initial
  rw [construct_frame, nothingListed]
  rfl

theorem construct_inv (a : ConstructArgs) : (construct a).Inv := by
  refine inv_of_reset ?_ (construct_frame a)
  rw [construct_mem]
  exact Memory.ofContents_wf _

/-- Settles O56: memory holds the contents it was built from, canonically, and every other field is that of reset. -/
theorem constructFillsMemory : Obligations.ConstructFillsMemory := by
  unfold Obligations.ConstructFillsMemory
  refine ⟨construct_default, fun a => ⟨construct_inv a, fun d hd r hr => ?_, fun c hc outside => ?_, construct_frame a⟩⟩
  · rw [construct_mem_read a (by omega), Nat.add_assoc, contentsAt_font _ _ (by omega)]
  · rw [construct_mem_read a hc, contentsAt_fill _ _ outside]

end Sys2Proof.Machine
end

section
/-! PROOFS. The transactions of a session (spec/60_exceptions.md R251, R252, R270 to R278): what each does to the core, the
invariant, the timers and the key wait. -/

namespace Sys2Proof.Machine

/-! ## One transaction, by the state of FAULT -/

theorem transact_running {a : Session} (op : HostOp) (hf : a.core.fault = none) :
    a.transact op = a.transactRunning op := by
  simp only [Session.transact, faultOutput, hf]

theorem transact_halted {a : Session} {op : HostOp} {f : Fault} (hf : a.core.fault = some f) (hop : op ≠ .readOutputs) :
    a.transact op = .error .coreHalted := by
  cases op with
  | readOutputs => exact absurd rfl hop
  | _ => simp only [Session.transact, faultOutput, hf]

theorem transact_halted_readOutputs {a : Session} {f : Fault} (hf : a.core.fault = some f) :
    a.transact .readOutputs = .ok (a, .halted f) := by
  simp only [Session.transact, faultOutput, hf]

theorem step_halted {s : State} {f : Fault} (hf : s.fault = some f) : step s = .refused .coreHalted := by
  simp only [step, hf]

/-- Settles O59: the refusals of `transact` and `step`, each by its own guard. -/
theorem operationsOutsideTheSpecAreRefused : Obligations.OperationsOutsideTheSpecAreRefused := by
  unfold Obligations.OperationsOutsideTheSpecAreRefused
  refine ⟨fun a f hf => ⟨step_halted hf, transact_halted_readOutputs hf, fun op => transact_halted hf⟩,
    fun a hf => ⟨fun image late => ?_, fun unloaded => ?_⟩⟩
  · rw [transact_running _ hf, Session.transactRunning, if_pos (Bool.or_eq_true_iff.mpr late)]
  · rw [transact_running _ hf, Session.transactRunning, unloaded]
    rfl

/-- What an operation that leaves FAULT none does to the core. -/
def Ran (op : HostOp) (s t : State) : Prop :=
  match op with
  | .load image => load image s = .ok t
  | .step => step s = .next t
  | .tickTimers => t = tickTimers s
  | .keyEvent k pressed => t = (keyEvent k pressed s).1
  | .consumeFrame => t = (consumeFrame s).1
  | .readOutputs => t = s

theorem haltWith_fault (a : Session) (f : Fault) : (a.haltWith f).1.core.fault = some f := rfl

theorem transactRunning_ran {op : HostOp} {a b : Session} {r : Reply} (h : a.transactRunning op = .ok (b, r))
    (hf : b.core.fault = none) : Ran op a.core b.core := by
  cases op with
  | load image =>
    simp only [Session.transactRunning] at h
    split at h
    · cases h
    · split at h
      · next s loaded => injection h with h; injection h with h; subst h; exact loaded
      · next f _ =>
        injection h with h
        have halted := haltWith_fault a f
        rw [h, hf] at halted
        cases halted
  | step =>
    simp only [Session.transactRunning] at h
    split at h
    · cases h
    · split at h
      · next s stepped => injection h with h; injection h with h; subst h; exact stepped
      · next f _ =>
        injection h with h
        have halted := haltWith_fault a f
        rw [h, hf] at halted
        cases halted
      · cases h
  | _ => injection h with h; injection h with h; subst h; rfl

/-- The inversion lemma of `transact`: an operation that leaves FAULT none ran on a core that had not faulted. -/
theorem transact_ran {op : HostOp} {a b : Session} {r : Reply} (h : a.transact op = .ok (b, r))
    (hf : b.core.fault = none) : Ran op a.core b.core := by
  cases before : a.core.fault with
  | none => exact transactRunning_ran (transact_running op before ▸ h) hf
  | some f =>
    by_cases hop : op = .readOutputs
    · subst hop
      rw [transact_halted_readOutputs before] at h
      injection h with h
      injection h with h
      exact (congrArg Session.core h).symm
    · rw [transact_halted before hop] at h
      cases h

/-! ## What the operations of the host change -/

theorem load_next {image : List Byte} {s t : State} (h : load image s = .ok t) :
    (image = [] ∨ 0x200 + image.length ≤ 4096) ∧ t = s.setMem (Memory.writeAll image 0x200 s.mem) :=
  storeBytes_next (congrArg complete h)

/-- A key event changes the keys, a general register and WAIT only. -/
theorem keyEvent_frame (k : Int) (pressed : Bool) (s : State) : (keyEvent k pressed s).1 =
    { s with keys := (keyEvent k pressed s).1.keys, v := (keyEvent k pressed s).1.v,
             wait := (keyEvent k pressed s).1.wait } := by
  unfold keyEvent keyEventInRange
  split
  · dsimp only
    split <;> rfl
  · rfl

/-- A key event leaves WAIT as it was, unless it is the press of a key in range that ends a wait (R265). -/
theorem keyEvent_wait (k : Int) (pressed : Bool) (s : State) : (keyEvent k pressed s).1.wait = s.wait ∨
    ((0 ≤ k ∧ k < 16 ∧ pressed = true) ∧ (keyEvent k pressed s).1.wait = false) := by
  by_cases inRange : 0 ≤ k ∧ k < 16
  · obtain ⟨j, rfl⟩ : ∃ j : Fin 16, (j.val : Int) = k := ⟨⟨k.toNat, by omega⟩, Int.toNat_of_nonneg inRange.1⟩
    rw [keyEvent_inRange]
    cases pressed with
    | false => exact .inl rfl
    | true =>
      cases hw : s.wait with
      | false => exact .inl (by rw [keyEventInRange_not_waiting j true hw, setKey_wait, hw])
      | true => exact .inr ⟨⟨inRange.1, inRange.2, rfl⟩, by rw [keyEventInRange_press_waiting j hw, endWait_wait]⟩
  · rw [keyEvent_outOfRange pressed s (by omega)]
    exact .inl rfl

/-! ## The invariant (R270) -/

/-- The invariant speaks of memory, PC, the stack and FAULT only. -/
theorem inv_congr {s t : State} (hi : s.Inv) (mem : t.mem = s.mem) (pc : t.pc = s.pc) (stack : t.stack = s.stack)
    (fault : t.fault = s.fault) : t.Inv := by
  unfold State.Inv
  rw [mem, pc, stack, fault]
  exact hi

theorem ran_inv {op : HostOp} {s t : State} (hi : s.Inv) (h : Ran op s t) : t.Inv := by
  cases op with
  | load image =>
    obtain ⟨inside, rfl⟩ := load_next h
    obtain ⟨hm, rest⟩ := hi
    exact ⟨Memory.writeAll_wf image 0x200 hm inside, rest⟩
  | step => exact step_inv hi h
  | tickTimers => subst h; exact inv_congr hi rfl rfl rfl rfl
  | keyEvent k pressed =>
    subst h
    rw [keyEvent_frame]
    exact inv_congr hi rfl rfl rfl rfl
  | consumeFrame => subst h; exact inv_congr hi rfl rfl rfl rfl
  | readOutputs => exact h ▸ hi

/-- Settles O13: by what each operation did to the core. -/
theorem transactionKeepsTheInvariant : Obligations.TransactionKeepsTheInvariant := by
  unfold Obligations.TransactionKeepsTheInvariant
  exact fun op a b r hi h hf => ran_inv hi (transact_ran h hf)

/-! ## The timers and the key wait in a step -/

theorem step_dt {s t : State} (h : step s = .next t) (changed : t.dt ≠ s.dt) :
    ∃ w x, fetchWord s = .ok w ∧ decode w = .instr (.ldDtX x) ∧ t.dt = s.reg x := by
  obtain ⟨-, w, hw, ⟨i, hd, he⟩ | ⟨e, -, rfl⟩⟩ := step_next h
  · by_cases own : ∃ x, i = .ldDtX x
    · obtain ⟨x, rfl⟩ := own
      exact ⟨w, x, hw, hd, by rw [exec_overlay he]; rfl⟩
    · exact absurd (exec_dt he (not_exists.mp own)) changed
  · exact absurd rfl changed

theorem step_st {s t : State} (h : step s = .next t) (changed : t.st ≠ s.st) :
    ∃ w x, fetchWord s = .ok w ∧ decode w = .instr (.ldStX x) ∧ t.st = s.reg x := by
  obtain ⟨-, w, hw, ⟨i, hd, he⟩ | ⟨e, -, rfl⟩⟩ := step_next h
  · by_cases own : ∃ x, i = .ldStX x
    · obtain ⟨x, rfl⟩ := own
      exact ⟨w, x, hw, hd, by rw [exec_overlay he]; rfl⟩
    · exact absurd (exec_st he (not_exists.mp own)) changed
  · exact absurd rfl changed

theorem step_wait {s t : State} (h : step s = .next t) (changed : t.wait ≠ s.wait) :
    ∃ w x, fetchWord s = .ok w ∧ decode w = .instr (.ldXK x) ∧ t.wait = true ∧ t.waitReg = x := by
  obtain ⟨-, w, hw, ⟨i, hd, he⟩ | ⟨e, -, rfl⟩⟩ := step_next h
  · by_cases own : ∃ x, i = .ldXK x
    · obtain ⟨x, rfl⟩ := own
      exact ⟨w, x, hw, hd, by rw [exec_overlay he]; exact ⟨rfl, rfl⟩⟩
    · exact absurd (exec_wait he (not_exists.mp own)) changed
  · exact absurd rfl changed

/-! ## The timers and the key wait over all transactions (R116, R237, R261) -/

/-- An operation other than a tick or a step leaves both timers. -/
theorem ran_timers {op : HostOp} {s t : State} (h : Ran op s t) (tick : op ≠ .tickTimers) (step : op ≠ .step) :
    t.dt = s.dt ∧ t.st = s.st := by
  cases op with
  | load image => obtain ⟨-, rfl⟩ := load_next h; exact ⟨rfl, rfl⟩
  | step => exact absurd rfl step
  | tickTimers => exact absurd rfl tick
  | keyEvent k pressed => subst h; rw [keyEvent_frame]; exact ⟨rfl, rfl⟩
  | consumeFrame => subst h; exact ⟨rfl, rfl⟩
  | readOutputs => subst h; exact ⟨rfl, rfl⟩

/-- Settles O18: only a tick and a step change a timer, and a step only by the instruction that sets it. -/
theorem timersChangeOnlyByTickOrTheirInstruction : Obligations.TimersChangeOnlyByTickOrTheirInstruction := by
  unfold Obligations.TimersChangeOnlyByTickOrTheirInstruction
  intro op a b r h hf
  have ran := transact_ran h hf
  by_cases tick : op = .tickTimers
  · exact ⟨fun _ => .inl tick, fun _ => .inl tick⟩
  by_cases stepped : op = .step
  · subst stepped
    exact ⟨fun changed => .inr ⟨rfl, step_dt ran changed⟩, fun changed => .inr ⟨rfl, step_st ran changed⟩⟩
  · obtain ⟨dt, st⟩ := ran_timers ran tick stepped
    exact ⟨fun changed => absurd dt changed, fun changed => absurd st changed⟩

/-- An operation changes WAIT as a step of Fx0A, which sets it, or as the press of a key in range, which clears it. -/
theorem ran_wait {op : HostOp} {s t : State} (h : Ran op s t) (changed : t.wait ≠ s.wait) :
    (op = .step ∧ ∃ w x, fetchWord s = .ok w ∧ decode w = .instr (.ldXK x) ∧ t.wait = true ∧ t.waitReg = x) ∨
    ((∃ k : Int, 0 ≤ k ∧ k < 16 ∧ op = .keyEvent k true) ∧ t.wait = false) := by
  cases op with
  | load image => obtain ⟨-, rfl⟩ := load_next h; exact absurd rfl changed
  | step => exact .inl ⟨rfl, step_wait h changed⟩
  | tickTimers => subst h; exact absurd rfl changed
  | keyEvent k pressed =>
    subst h
    obtain same | ⟨⟨low, high, rfl⟩, cleared⟩ := keyEvent_wait k pressed s
    · exact absurd same changed
    · exact .inr ⟨⟨k, low, high, rfl⟩, cleared⟩
  | consumeFrame => subst h; exact absurd rfl changed
  | readOutputs => subst h; exact absurd rfl changed

/-- Settles O19: the two ways WAIT changes, told apart by the value it ends with. -/
theorem keyWaitIsEnteredByFx0AAndLeftByAPress : Obligations.KeyWaitIsEnteredByFx0AAndLeftByAPress := by
  unfold Obligations.KeyWaitIsEnteredByFx0AAndLeftByAPress
  intro op a b r h hf
  have ran := transact_ran h hf
  refine ⟨fun before after => ?_, fun before after => ?_⟩
  · obtain ⟨step, w, x, hw, hd, -, target⟩ | ⟨-, cleared⟩ := ran_wait ran (by rw [before, after]; nofun)
    · exact ⟨step, w, x, hw, hd, target⟩
    · rw [after] at cleared
      cases cleared
  · obtain ⟨-, w, x, -, -, set, -⟩ | ⟨press, -⟩ := ran_wait ran (by rw [before, after]; nofun)
    · rw [after] at set
      cases set
    · exact press

/-! ## What a step of a session answers (R256, R277) -/

/-- The events a step emitted: the report of an unrecognized word, and none for an instruction. -/
theorem eventsSince_step {s t : State} {w : Word} (hw : fetchWord s = .ok w) (h : step s = .next t) :
    eventsSince s t = match decode w with
      | .instr _ => []
      | .reject _ => [⟨w, s.pc⟩] := by
  obtain ⟨-, w', hw', ⟨i, hd, he⟩ | ⟨e, hd, rfl⟩⟩ := step_next h
  · obtain rfl : w = w' := Except.ok.inj (hw.symm.trans hw')
    obtain ⟨-, -, -, -, events⟩ := exec_unwritten he
    rw [hd, eventsSince, events, advancePc_events, List.drop_length]
  · obtain rfl : w = w' := Except.ok.inj (hw.symm.trans hw')
    rw [hd, eventsSince, report_events, advancePc_events, List.drop_left]

/-- Settles O58: the two replies of a step on a loaded session that has not faulted. -/
theorem sessionStepSurfacesFaultsAndReports : Obligations.SessionStepSurfacesFaultsAndReports := by
  unfold Obligations.SessionStepSurfacesFaultsAndReports
  intro a loaded hf
  refine ⟨fun f h => ⟨_, ?_, haltWith_fault a f⟩, fun t w hw h => ⟨{ a with core := t, stepped := true }, rfl, ?_⟩⟩
  · simp only [transact_running _ hf, Session.transactRunning, loaded, h]
    rfl
  · simp only [transact_running _ hf, Session.transactRunning, loaded, h]
    exact congrArg (fun es => Except.ok (_, Reply.ok es)) (eventsSince_step hw h)

end Sys2Proof.Machine
end
